-- ==== Sys2Proof/Word.lean ====
section
/-! DEFINITION. The word types of the frame-and-check block (spec/00_scope.md R8). -/

namespace Sys2Proof

/-- A byte, 8 bits, bit 0 the least significant (R8). -/
abbrev Byte := BitVec 8

/-- A 16-bit value: a length field, a status word, an error code. -/
abbrev Word16 := BitVec 16

/-- A 32-bit value: the CRC register and the result of `REG.RD`. -/
abbrev Word32 := BitVec 32

/-- The 17-bit count registers `RXLEN` and `DCNT` (spec/10_state.md R20). -/
abbrev Count := BitVec 17

/-- The 24-bit index operand of `RX.RD` (spec/30_encoding.md R82). -/
abbrev Index24 := BitVec 24

end Sys2Proof
end

