-- ==== Sys2Proof/Machine/Operands.lean ====
section
/-! DEFINITION. Bit fields, byte order and operand assembly (spec/00_scope.md R8, R9; spec/20_memory.md R54 to R57;
spec/30_encoding.md R81 to R84). No access is wider than a byte, so these are the only byte orders of the block. -/

namespace Sys2Proof.Machine

/-- `hi8(v) = v[15:8]` (R9). -/
def hi8 (v : Word16) : Byte := v.extractLsb' 8 8

/-- `lo8(v) = v[7:0]` (R9). -/
def lo8 (v : Word16) : Byte := v.extractLsb' 0 8

/-- `be16(h, l) = h * 256 + l` (R9): the big-endian value of two bytes. -/
def be16 (h l : Byte) : Word16 := BitVec.ofNat 16 (h.toNat * 256 + l.toNat)

/-- The value of a frame's length field (R54, R83). -/
def lengthField (h l : Byte) : Nat := (be16 h l).toNat

/-- The `X3` operand (R82): `i1 * 65536 + i2 * 256 + i3`, most significant byte first. -/
def index24 (i1 i2 i3 : Byte) : Index24 := BitVec.ofNat 24 (i1.toNat * 65536 + i2.toNat * 256 + i3.toNat)

/-- The three operand bytes of an `X3` index, most significant first (R82). -/
def index24Bytes (i : Index24) : List Byte := [i.extractLsb' 16 8, i.extractLsb' 8 8, i.extractLsb' 0 8]

/-- A count narrowed to the 17 bits of `RXLEN` and `DCNT` (R20). The rules bound every count they write (R8). -/
def count17 (n : Nat) : Count := BitVec.ofNat 17 n

/-- `zext_32` of a byte (R8). -/
def zext32 (b : Byte) : Word32 := b.setWidth 32

/-- Byte `k` of an operation whose bits, first byte least significant, are `w`. -/
def wordByte (w k : Nat) : Byte := BitVec.ofNat 8 (w >>> (8 * k))

end Sys2Proof.Machine
end

