-- ==== Sys2Proof/Syntax.lean ====
section
/-! DEFINITION. The 19 host operations (spec/30_encoding.md R85), one constructor for each row of
spec/opcode_table.json, operands as R78 to R82 give them. -/

namespace Sys2Proof

/-- A host operation (R11, R85). -/
inductive Instr where
  /-- `BCC.CLR` (R101) -/
  | bccClr
  /-- `BCC.UPD b` (R102) -/
  | bccUpd (b : Byte)
  /-- `BCC.RD` (R103) -/
  | bccRd
  /-- `CRC.INIT` (R113) -/
  | crcInit
  /-- `CRC.UPD b` (R114) -/
  | crcUpd (b : Byte)
  /-- `CRC.RD` (R115) -/
  | crcRd
  /-- `CRC.BREV` (R117) -/
  | crcBrev
  /-- `ENC.BASIC addr, cm, pm` (R128) -/
  | encBasic (addr cm pm : Byte)
  /-- `ENC.APDU addr, apdu` (R129) -/
  | encApdu (addr : Byte) (apdu : List Byte)
  /-- `DEC` (R143) -/
  | dec
  /-- `RX.LEN` (R158) -/
  | rxLen
  /-- `RX.RD index` (R159) -/
  | rxRd (index : Index24)
  /-- `CLS.TSUCC` (R174) -/
  | clsTsucc
  /-- `CLS.ASUCC` (R177) -/
  | clsAsucc
  /-- `CLS.ADESC` (R179) -/
  | clsAdesc
  /-- `CLS.STAT` (R181) -/
  | clsStat
  /-- `CLS.ERR` (R183) -/
  | clsErr
  /-- `CLS.FIELDS` (R172) -/
  | clsFields
  /-- `REG.RD n` (R196) -/
  | regRd (n : Byte)
  deriving DecidableEq, Repr

end Sys2Proof
end

