-- ==== Sys2Proof/WellFormed.lean ====
section
/-! DEFINITION. Which operations have an encoding: those whose operands fit the fields of their format
(spec/30_encoding.md R78). The types of the operands say it for all but the APDU of format `AV`. -/

namespace Sys2Proof

/-- R81: the payload length `m` is a 16-bit number, 0 to 65535. -/
def apduFits (apdu : List Byte) : Bool := decide (apdu.length ≤ 65535)

/-- An operation whose operands fit its format. -/
def Instr.wellFormed : Instr → Bool
  | .encApdu _ apdu => apduFits apdu
  | .bccClr | .bccUpd _ | .bccRd | .crcInit | .crcUpd _ | .crcRd | .crcBrev | .encBasic _ _ _ | .dec | .rxLen
  | .rxRd _ | .clsTsucc | .clsAsucc | .clsAdesc | .clsStat | .clsErr | .clsFields | .regRd _ => true

end Sys2Proof
end

