-- ==== Sys2Proof/Decode.lean ====
section
/-! DEFINITION. The decoder of host operations from the bytes the host presents, and the encoder
(spec/30_encoding.md R77, R78, R81, R82, R85, R86, R89). -/

namespace Sys2Proof

open Sys2Proof.Machine

/-- What the bytes the host presents begin with. -/
inductive Decoded where
  /-- An operation, and the bytes after it. -/
  | op (i : Instr) (rest : List Byte)
  /-- A reserved operation code: one byte long, it reads no operand byte (R86). -/
  | reserved (code : Byte) (rest : List Byte)
  /-- An operation with bytes missing, which is not an operation (R77). -/
  | incomplete
  /-- No byte at all: the host issues nothing. -/
  | nothing
  deriving DecidableEq, Repr

/-! ## The operation codes (R85) -/

/-- R85: the operation code of each operation. -/
def opcode : Instr → Byte
  | .bccClr => 0x10
  | .bccUpd _ => 0x11
  | .bccRd => 0x12
  | .crcInit => 0x20
  | .crcUpd _ => 0x21
  | .crcRd => 0x22
  | .crcBrev => 0x23
  | .encBasic _ _ _ => 0x30
  | .encApdu _ _ => 0x31
  | .dec => 0x40
  | .rxLen => 0x41
  | .rxRd _ => 0x42
  | .clsTsucc => 0x50
  | .clsAsucc => 0x51
  | .clsAdesc => 0x52
  | .clsStat => 0x53
  | .clsErr => 0x54
  | .clsFields => 0x55
  | .regRd _ => 0x60

/-! ## Decoding, one helper for each format of R78 -/

/-- Format `B`: one operand byte. -/
def decodeB (make : Byte → Instr) : List Byte → Decoded
  | b :: rest => .op (make b) rest
  | _ => .incomplete

/-- Format `C3`: device address, command byte, parameter byte. -/
def decodeC3 (make : Byte → Byte → Byte → Instr) : List Byte → Decoded
  | a :: c :: p :: rest => .op (make a c p) rest
  | _ => .incomplete

/-- Format `X3`: a 24-bit index, most significant byte first (R82). -/
def decodeX3 (make : Index24 → Instr) : List Byte → Decoded
  | i1 :: i2 :: i3 :: rest => .op (make (index24 i1 i2 i3)) rest
  | _ => .incomplete

/-- Format `AV`: device address, big-endian payload length `m`, then `m` payload bytes (R81). -/
def decodeAV (make : Byte → List Byte → Instr) : List Byte → Decoded
  | a :: h :: l :: rest =>
    if rest.length < lengthField h l then .incomplete
    else .op (make a (rest.take (lengthField h l))) (rest.drop (lengthField h l))
  | _ => .incomplete

/-- The operand bytes after an operation code, by the map of R85; every other code is reserved (R86). -/
def decodeAfter (code : Byte) (rest : List Byte) : Decoded :=
  if code = 0x10 then .op .bccClr rest
  else if code = 0x11 then decodeB .bccUpd rest
  else if code = 0x12 then .op .bccRd rest
  else if code = 0x20 then .op .crcInit rest
  else if code = 0x21 then decodeB .crcUpd rest
  else if code = 0x22 then .op .crcRd rest
  else if code = 0x23 then .op .crcBrev rest
  else if code = 0x30 then decodeC3 .encBasic rest
  else if code = 0x31 then decodeAV .encApdu rest
  else if code = 0x40 then .op .dec rest
  else if code = 0x41 then .op .rxLen rest
  else if code = 0x42 then decodeX3 .rxRd rest
  else if code = 0x50 then .op .clsTsucc rest
  else if code = 0x51 then .op .clsAsucc rest
  else if code = 0x52 then .op .clsAdesc rest
  else if code = 0x53 then .op .clsStat rest
  else if code = 0x54 then .op .clsErr rest
  else if code = 0x55 then .op .clsFields rest
  else if code = 0x60 then decodeB .regRd rest
  else .reserved code rest

/-- The operation the bytes the host presents begin with. -/
def decode : List Byte → Decoded
  | [] => .nothing
  | code :: rest => decodeAfter code rest

/-! ## Encoding -/

/-- The operand bytes of an operation (R78, R81, R82). -/
def operandBytes : Instr → List Byte
  | .bccUpd b => [b]
  | .crcUpd b => [b]
  | .regRd n => [n]
  | .encBasic addr cm pm => [addr, cm, pm]
  | .encApdu addr apdu => [addr, hi8 (BitVec.ofNat 16 apdu.length), lo8 (BitVec.ofNat 16 apdu.length)] ++ apdu
  | .rxRd i => index24Bytes i
  | .bccClr | .bccRd | .crcInit | .crcRd | .crcBrev | .dec | .rxLen | .clsTsucc | .clsAsucc | .clsAdesc | .clsStat
  | .clsErr | .clsFields => []

/-- The bytes of an operation (R77): its operation code, then its operand bytes. -/
def encode (i : Instr) : List Byte := opcode i :: operandBytes i

/-- How many bytes an operation takes (R78; `length_bytes` of spec/opcode_table.json). -/
def byteLength : Instr → Nat
  | .bccUpd _ | .crcUpd _ | .regRd _ => 2
  | .encBasic _ _ _ | .rxRd _ => 4
  | .encApdu _ apdu => 4 + apdu.length
  | .bccClr | .bccRd | .crcInit | .crcRd | .crcBrev | .dec | .rxLen | .clsTsucc | .clsAsucc | .clsAdesc | .clsStat
  | .clsErr | .clsFields => 1

/-! ## Operations given as numbers -/

/-- R89: how many bytes an operation takes, told from its operation code and, for `ENC.APDU`, bytes 3 and 4. -/
def byteCount (code h l : Byte) : Nat :=
  if code = 0x11 || code = 0x21 || code = 0x60 then 2
  else if code = 0x30 || code = 0x42 then 4
  else if code = 0x31 then 4 + lengthField h l
  else 1

/-- The bytes of the operation whose low `nbits` bits are those of `w` and whose other bits are 0, its first byte the
least significant, as spec/opcode_table.json numbers bits. -/
def tableBytes (nbits w : Nat) : List Byte :=
  let v := w % 2 ^ nbits
  (List.range (byteCount (wordByte v 0) (wordByte v 2) (wordByte v 3))).map (wordByte v)

/-- The operation the decoder reads from those bytes. -/
def decodeTableWord (nbits w : Nat) : Option Instr :=
  match decode (tableBytes nbits w) with
  | .op i _ => some i
  | .reserved _ _ | .incomplete | .nothing => none

end Sys2Proof
end

