-- ==== Sys2Proof/Config.lean ====
section
/-! DEFINITION. The configuration record `Cfg` of spec/00_scope.md R5 with the well-formedness of R7, the constants the
source fixes (R6), the answers the byte channel can give (spec/20_memory.md R51, R52), and the free values: constants
without a body, whose value no proof can see. -/

namespace Sys2Proof

/-! ## Constants the source fixes (R5, R6) -/

/-- `ACK`: the acknowledgment byte that may precede an inbound frame. -/
abbrev Config.ACK : Byte := 0x06
/-- `CRC_POLY`: the reflected CRC-32 polynomial. -/
abbrev Config.CRC_POLY : Word32 := 0xEDB88320
/-- `CRC_INIT`: the initial CRC register. -/
abbrev Config.CRC_INIT : Word32 := 0xFFFFFFFF
/-- `HDR_READ`: bytes read as the inbound header. -/
abbrev Config.HDR_READ : Nat := 5
/-- `LEN_OVERHEAD`: MSG_TYPE, CTRL1 and CTRL2, counted in the length field before the body. -/
abbrev Config.LEN_OVERHEAD : Nat := 3
/-- `TRAILER`: END and CHECKSUM, which follow the declared length. -/
abbrev Config.TRAILER : Nat := 2
/-- `BASIC_LEN`: the length field of every basic command frame. -/
abbrev Config.BASIC_LEN : Nat := 3
/-- `SW_MORE`: the success word that means "additional frame available". -/
abbrev Config.SW_MORE : Word16 := 0x91AF
/-- `SW_OK`: the APDU status words that count as success. -/
abbrev Config.SW_OK : List Word16 := [0x9100, 0x9000, 0x91AF]
/-- `APDU_MAX`: the longest APDU the encoder accepts, 65535 minus `LEN_OVERHEAD`. -/
abbrev Config.APDU_MAX : Nat := 65532

/-! ## The configuration (R5) and its well-formedness (R7) -/

/-- `ACK_ABSENT`: what the decoder does with a header that begins with `START` and had no acknowledgment byte
(spec/43_frame_decode.md R147; spec/90_conflicts.md C1). -/
inductive AckAbsent where
  | desync
  | realign
  deriving DecidableEq, Repr

/-- A lookup table: a partial map from a code to a description index (spec/10_state.md R32). A code's entry is the first
pair that holds it; a code that no pair holds is a miss. -/
abbrev Table (w : Nat) := List (BitVec w × Nat)

/-- The description index a table gives a code, or nothing on a miss (R32). -/
def Table.find {w : Nat} (t : Table w) (code : BitVec w) : Option Nat :=
  match t with
  | [] => none
  | (c, index) :: rest => if c = code then some index else Table.find rest code

/-- The fields of `Cfg` that R5 leaves open or gives a default, before the check of R7. -/
structure RawCfg where
  start : Byte
  endMark : Byte
  cmt : Byte
  pmt : Byte
  actrl1 : Byte
  actrl2 : Byte
  offSt0 : Byte
  offSt1 : Byte
  offSt2 : Byte
  offE1 : Byte
  offE0 : Byte
  dispTable : Table 8
  stackTable : Table 8
  captTable : Table 8
  errTable : Table 16
  apduTable : Table 16
  ackAbsent : AckAbsent
  rxCap : Nat
  deriving DecidableEq, Repr

/-- R7 (a): `START` differs from `ACK`. -/
def RawCfg.startOk (c : RawCfg) : Bool := c.start != Config.ACK

/-- R7 (b): the status-word table holds 0x9100, 0x9000, 0x91AF and 0x91AE and does not hold 0x6A82. -/
def RawCfg.apduTableOk (c : RawCfg) : Bool :=
  (c.apduTable.find 0x9100).isSome && (c.apduTable.find 0x9000).isSome && (c.apduTable.find 0x91AF).isSome
    && (c.apduTable.find 0x91AE).isSome && (c.apduTable.find 0x6A82).isNone

/-- R7 (c): 9 ≤ `RX_CAP` ≤ 65541. -/
def RawCfg.rxCapOk (c : RawCfg) : Bool := decide (9 ≤ c.rxCap) && decide (c.rxCap ≤ 65541)

/-- R7 (d): every configured offset is at least 5; that it is at most 255 is its type. -/
def RawCfg.offsetsOk (c : RawCfg) : Bool :=
  [c.offSt0, c.offSt1, c.offSt2, c.offE1, c.offE0].all fun o => decide (5 ≤ o.toNat)

/-- R7: a configuration is well-formed. -/
def RawCfg.wellFormed (c : RawCfg) : Bool := c.startOk && c.apduTableOk && c.rxCapOk && c.offsetsOk

/-- A well-formed configuration. R7 has a model refuse any other: one that fails the check cannot be built. -/
structure Cfg extends RawCfg where
  wf : toRawCfg.wellFormed = true
  deriving DecidableEq, Repr

/-- The configuration a record stands for, or nothing: the refusal of R7. -/
def RawCfg.toCfg? (c : RawCfg) : Option Cfg :=
  if h : c.wellFormed = true then some ⟨c, h⟩ else none

/-! ## The byte channel's answers (R51, R52) -/

/-- The channel's answer to `RxNext()` (R52): the next byte of the inbound stream, an error, or nothing yet. -/
inductive RxAnswer where
  | byte (b : Byte)
  | ioError
  | nothingYet
  deriving DecidableEq, Repr

/-- The channel's answer to `TxWrite(S)` (R51): all of `S` went out, or an error after which some prefix of `S`, here its
first `sent` bytes, had gone out (spec/42_frame_encode.md R127). -/
inductive TxAnswer where
  | ok
  | ioError (sent : Nat)
  deriving DecidableEq, Repr, Inhabited

/-! ## Free values: no body, so that no proof can rest on one -/

/-- A well-formed record, only to show that one exists: `Config.chosen` is applied to it and, having no body, tells
nothing of it. -/
def Cfg.inhabitant : Cfg :=
  ⟨⟨0, 0, 0, 0, 0, 0, 5, 5, 5, 5, 5, [], [], [], [], [(0x9100, 0), (0x9000, 0), (0x91AF, 0), (0x91AE, 0)], .desync, 9⟩,
    by decide⟩

/-- The link constants and tables of the machine after reset: the source gives none of them (R5, R234; assumption 1). -/
opaque Config.chosen [Inhabited Cfg] : Cfg

/-- The channel's answer to the `n`-th write after the answers that a state lists are used up (R51; assumption 4). -/
opaque Config.txAnswer : Nat → TxAnswer

/-- The inbound answers a device has ready for the machine after reset (R52; assumption 3). -/
opaque Config.inboundAtReset : List RxAnswer

/-- The open fields as chosen, `ACK_ABSENT` and `RX_CAP` at the defaults R5 gives them. -/
def RawCfg.withDefaults (c : RawCfg) : RawCfg := { c with ackAbsent := .desync, rxCap := 65541 }

/-- The defaults of R5 keep a configuration well-formed. -/
theorem RawCfg.withDefaults_wellFormed (c : RawCfg) (h : c.wellFormed = true) : c.withDefaults.wellFormed = true := by
  simp only [RawCfg.wellFormed, Bool.and_eq_true] at h ⊢
  exact ⟨⟨⟨h.1.1.1, h.1.1.2⟩, rfl⟩, h.2⟩

/-- The configuration of the machine after reset. -/
def Config.machine : Cfg :=
  ⟨(@Config.chosen ⟨Cfg.inhabitant⟩).toRawCfg.withDefaults,
    RawCfg.withDefaults_wellFormed _ (@Config.chosen ⟨Cfg.inhabitant⟩).wf⟩

end Sys2Proof
end

