-- ==== Sys2Proof/Machine/State.lean ====
section
/-! DEFINITION. The state of the frame-and-check block (spec/10_state.md R20 to R36), the two agents it meets, the host and
the byte channel (spec/00_scope.md R11; spec/20_memory.md R51, R52), the results an operation returns (spec/30_encoding.md
R79; spec/60_exceptions.md R205), the reasons a step can stop, and the state after reset. -/

namespace Sys2Proof.Machine

/-! ## Memory -/

/-- The receive buffer (R24, R50): index and byte of every index that holds a value, indices strictly rising. An index
that is not listed holds no value. -/
abbrev Memory := List Host.Cell

/-- The canonical form of a memory. No entry can equal what an unlisted index reads as, which is no value. -/
abbrev Memory.wf (m : Memory) : Prop := (m.map Prod.fst).Pairwise (· < ·)

/-! ## Decoder phase (R28) -/

/-- `DPH`, the decoder phase (R28). -/
inductive Phase where
  /-- No decode since reset. -/
  | idle
  /-- A decode is running and fewer than 5 header bytes have arrived. -/
  | hdr
  /-- The header was accepted and the rest of the frame is being read. -/
  | tail
  /-- The last decode succeeded. -/
  | done
  /-- The last decode failed. -/
  | fail
  deriving DecidableEq, Repr

/-! ## Results (R79, R205) -/

/-- Which of the three status bytes a lookup missed (R180). -/
inductive StatusField where
  | dispenser
  | stacker
  | captureBox
  deriving DecidableEq, Repr

/-- The record `CLS.FIELDS` returns (R171). -/
structure FrameFields where
  addr : Byte
  len : Word16
  msgType : Byte
  ctrl1 : Byte
  ctrl2 : Byte
  bodyOff : Nat
  bodyLen : Nat
  endMark : Byte
  checksum : Byte
  deriving DecidableEq, Repr

/-- The value an operation returns with `Ok` (R79, R85). -/
inductive Value where
  | nothing
  | byte (b : Byte)
  | word (v : Word32)
  | count (n : Count)
  | bool (b : Bool)
  | bytes (bs : List Byte)
  | apduSuccess (ok more : Bool)
  | index (n : Nat)
  | status (dispenser stacker captureBox : Nat)
  | errorCode (code : Word16) (index : Nat)
  | fields (f : FrameFields)
  deriving DecidableEq, Repr

/-- A fault of an operation (R205): a result handed to the host, with what it carries. It is no stop of the machine. -/
inductive OpFault where
  /-- `FrameDesyncError`, cause `BadStart` -/
  | badStart
  /-- `FrameDesyncError`, cause `AckMissing` -/
  | ackMissing
  /-- `FrameDesyncError`, cause `ShortLength` -/
  | shortLength
  /-- `FrameDesyncError`, cause `TooLong` -/
  | tooLong
  /-- `FrameDesyncError`, cause `BadEnd` -/
  | badEnd
  | checksumMismatch
  | undocumentedStatusWord (word : Word16)
  | unknownStatusCode (which : StatusField) (code : Byte)
  | unknownErrorCode (code : Word16)
  | channelIOError
  | illegalOp
  | encodeRefused
  | noFrame
  | shortFrame
  | badIndex
  | badReg
  deriving DecidableEq, Repr

/-- What the host sees an operation end with (R79): `Ok` and a value, a fault, or, for a `DEC` that a reset abandoned,
`Aborted`, which is not a result code (spec/70_reset_and_hazards.md R231). -/
inductive Response where
  | ok (v : Value)
  | fault (f : OpFault)
  | aborted
  deriving DecidableEq, Repr

/-! ## Why a step stops -/

/-- The reasons a step stops with a fault. Both are raised by accesses to `RXBUF` that no state a run reaches makes
(R37). -/
inductive Fault where
  /-- Raised by a decoder step or an `RX.RD` or `CLS.*` that reads an index of `RXBUF` which holds no value: R24 has a
  model give it none. Safe. -/
  | rxbufNoValue (index : Nat)
  /-- Raised by a decoder step that would store at an index of `RXBUF` that does not exist, `RX_CAP` or above (R24, R50).
  Safe. -/
  | rxbufOutside (index : Nat)
  deriving DecidableEq, Repr

/-- The reasons a step has no meaning. -/
inductive Refusal where
  /-- Raised by `exec` for an operation that has no meaning yet; no arm of `exec` is left that raises it. Safe. -/
  | notModelled (mnemonic : String)
  /-- Raised by the step that reads an operation with bytes missing: "an operation with bytes missing is not an operation
  and the model gives it no meaning" (R77). Safe. -/
  | incompleteOperation
  deriving DecidableEq, Repr

/-! ## State -/

/-- The machine: the block's own state (R20), its configuration (R5, which no step changes), and what the model holds of
the two agents around it and of the reset line. -/
structure State where
  /-- The configuration `Cfg` (R5), a parameter of the machine (assumption 1). -/
  cfg : Cfg
  /-- `BCC` (R21) -/
  bcc : Byte
  /-- `CRC` (R22) -/
  crc : Word32
  /-- `RXBUF` (R24) -/
  rxbuf : Memory
  /-- `RXLEN` (R25) -/
  rxLen : Count
  /-- `DPH` (R28) -/
  dph : Phase
  /-- `DCNT` (R29) -/
  dcnt : Count
  /-- `DACK` (R27) -/
  dack : Bool
  /-- `DERR` (R30) -/
  derr : Byte
  /-- The host: the bytes of the operations it has still to issue, in order (R11, R77). -/
  ops : List Byte
  /-- The host: what its operations ended with, in the order they returned (R79, R216). -/
  results : List Response
  /-- The channel: its answers to the `RxNext()` to come, in order. After the last one it answers nothing (R52). -/
  inbound : List RxAnswer
  /-- The channel: the read position, the number of inbound bytes consumed (R34). -/
  rxPos : Nat
  /-- The channel: what each `TxWrite` put on the outbound stream, in order (R34, R51). -/
  outbound : List (List Byte)
  /-- The channel: its answers to the `TxWrite` to come, in order. After the last one the answer is free (R51). -/
  txAnswers : List TxAnswer
  /-- The reset line at each step to come: true is a reset event (R230). After the last one there is no reset. -/
  resetLine : List Bool
  deriving DecidableEq, Repr

/-- The state after reset (R36, R230). The block's own fields are R36's. Of the rest the spec says that reset leaves it
alone (R232): the configuration and the inbound answers are free, the host has nothing to issue until a program is given
it, and the streams are empty (assumptions 1 to 5). -/
def State.reset : State where
  cfg := Config.machine
  bcc := 0x00
  crc := 0xFFFFFFFF
  rxbuf := []
  rxLen := 0
  dph := .idle
  dcnt := 0
  dack := false
  derr := 0x00
  ops := []
  results := []
  inbound := Config.inboundAtReset
  rxPos := 0
  outbound := []
  txAnswers := []
  resetLine := []

end Sys2Proof.Machine
end

