-- ==== Sys2Proof/Machine/Flags.lean ====
section
/-! DEFINITION. The one flag, `DACK` (spec/10_state.md R27), the decoder phase as bits (R28) and the `STATUS` view that
shows both (R31). There are no condition codes and no operation sets a flag as a side effect of arithmetic (R27). -/

namespace Sys2Proof.Machine

/-- The three bits of `DPH` (R28). -/
def Phase.code : Phase → BitVec 3
  | .idle => 0
  | .hdr => 1
  | .tail => 2
  | .done => 3
  | .fail => 4

/-- The busy phases, in which a decode runs (R28). -/
def Phase.busy : Phase → Bool
  | .hdr | .tail => true
  | .idle | .done | .fail => false

/-- The value the header evaluation gives `DACK` (R27, R145): whether header position 0 holds `ACK`. -/
def ackFlag (first : Byte) : Bool := first == Config.ACK

/-- `STATUS` (R31): `DERR` in bits 15:8, zero in 7:4, `DACK` in bit 3, `DPH` in bits 2:0. -/
def statusWord (s : State) : Word16 := BitVec.ofNat 16 (s.derr.toNat * 256 + s.dack.toNat * 8 + s.dph.code.toNat)

end Sys2Proof.Machine
end

