-- ==== Sys2Proof/Machine/Ops.lean ====
section
/-! DEFINITION. The named operations over the receive buffer, the channel and the host's results: reading and writing
`RXBUF` (spec/20_memory.md R50, R57, R58), returning a value, raising a fault (spec/60_exceptions.md R205, R216), ending a
decode (spec/43_frame_decode.md R153, R156), sending a frame (spec/42_frame_encode.md R127) and reset
(spec/70_reset_and_hazards.md R230 to R232). There is no return from a fault (R218). -/

namespace Sys2Proof.Machine

/-- What a step of the block answers. -/
abbrev Result := Host.Outcome State Fault Refusal

/-! ## The receive buffer -/

/-- `RXBUF[i]` as data: the byte index `i` holds, or nothing where it holds no value (R24). -/
def Memory.read (m : Memory) (i : Nat) : Option Byte :=
  match m with
  | [] => none
  | (a, v) :: rest => if a = i then some v else Memory.read rest i

/-- `RXBUF[i] <- v`, keeping the canonical form (R10, R57). -/
def Memory.write (m : Memory) (i : Nat) (v : Byte) : Memory :=
  match m with
  | [] => [(i, v)]
  | (a, w) :: rest =>
    if i < a then (i, v) :: (a, w) :: rest
    else if a = i then (i, v) :: rest
    else (a, w) :: Memory.write rest i v

/-- Every index from `n` up loses its value (R24). -/
def Memory.truncate (m : Memory) (n : Nat) : Memory := m.filter fun c => decide (c.1 < n)

/-- The bytes at the `n` indices from `a` up, read off a memory whose listed indices begin there; nothing if one of them
holds no value. -/
def Memory.bytesFrom (a n : Nat) (m : Memory) : Option (List Byte) :=
  match n, m with
  | 0, _ => some []
  | _ + 1, [] => none
  | n + 1, (b, v) :: rest => if b = a then (Memory.bytesFrom (a + 1) n rest).map (v :: ·) else none

/-- `RXBUF[0 .. n-1]` (R9). -/
def Memory.first (m : Memory) (n : Nat) : Option (List Byte) := Memory.bytesFrom 0 n m

/-- The memory that holds a byte sequence at the indices from `a` up. -/
def Memory.ofBytesAt (a : Nat) : List Byte → Memory
  | [] => []
  | b :: bs => (a, b) :: Memory.ofBytesAt (a + 1) bs

/-- The memory that holds a byte sequence at the indices from 0 up, and nothing else. -/
def Memory.ofBytes (bs : List Byte) : Memory := Memory.ofBytesAt 0 bs

/-- Read `RXBUF[i]` and go on with the byte. -/
def withByte (s : State) (i : Nat) (k : Byte → Result) : Result :=
  match s.rxbuf.read i with
  | some b => k b
  | none => .fault (.rxbufNoValue i)

/-! ## Results -/

/-- The result code of each fault (R205). -/
def OpFault.code : OpFault → Byte
  | .badStart => 0x01
  | .ackMissing => 0x02
  | .shortLength => 0x03
  | .tooLong => 0x04
  | .badEnd => 0x05
  | .checksumMismatch => 0x08
  | .undocumentedStatusWord _ => 0x10
  | .unknownStatusCode _ _ => 0x11
  | .unknownErrorCode _ => 0x12
  | .channelIOError => 0x18
  | .illegalOp => 0x20
  | .encodeRefused => 0x21
  | .noFrame => 0x22
  | .shortFrame => 0x23
  | .badIndex => 0x24
  | .badReg => 0x25

/-- The result code of what the host sees (R79, R205). `Aborted` has none (R231). -/
def Response.code : Response → Option Byte
  | .ok _ => some 0x00
  | .fault f => some f.code
  | .aborted => none

/-- An operation ends and the host has its result (R216). -/
def deliver (r : Response) (s : State) : State := { s with results := s.results ++ [r] }

/-- `return Ok(v)`. -/
def answer (v : Value) (s : State) : Result := .next (deliver (.ok v) s)

/-- `raise`: the operation ends with a fault. The fault is delivered to the host and nothing else changes (R10, R216,
R217). -/
def raise (f : OpFault) (s : State) : Result := .next (deliver (.fault f) s)

/-- R153, R156: `fail(c)`. The decode ends, `DEC` returns the fault with code `c`, no byte of the frame is left; `DACK`
keeps its value. -/
def decodeFail (f : OpFault) (s : State) : Result :=
  raise f { s with dph := .fail, derr := f.code, rxLen := 0, dcnt := 0, rxbuf := [] }

/-- R152, R156: the decode ends in `DONE` and `DEC` returns `Ok(RXLEN)`. -/
def decodeDone (s : State) : Result := answer (.count s.rxLen) { s with dph := .done }

/-! ## The channel -/

/-- The channel's answer to the next `TxWrite` (R51). -/
def txAnswer (s : State) : TxAnswer :=
  match s.txAnswers with
  | a :: _ => a
  | [] => Config.txAnswer s.outbound.length

/-- What of a frame is on the outbound stream after the channel's answer: all of it, or some prefix (R51, R127). -/
def onTheWire (frame : List Byte) : TxAnswer → List Byte
  | .ok => frame
  | .ioError sent => frame.take sent

/-- What an encode operation returns on the channel's answer (R127). -/
def txResponse : TxAnswer → Response
  | .ok => .ok .nothing
  | .ioError _ => .fault .channelIOError

/-- `TxWrite(frame)` and the return of the encode operation (R127): the block's own state does not change. -/
def sendFrame (frame : List Byte) (s : State) : Result :=
  .next (deliver (txResponse (txAnswer s))
    { s with outbound := s.outbound ++ [onTheWire frame (txAnswer s)], txAnswers := s.txAnswers.tail })

/-! ## Reset -/

/-- What the host sees of a reset: the `DEC` it was blocked in is abandoned (R231). -/
def abortedBy (s : State) : List Response := if s.dph.busy then [.aborted] else []

/-- The reset event (R230 to R232): the block's own state takes the values of R36; the channel, the configuration and the
host's program stay. -/
def resetEvent (s : State) : State :=
  { s with
    bcc := 0x00, crc := 0xFFFFFFFF, rxbuf := [], rxLen := 0, dph := .idle, dcnt := 0, dack := false, derr := 0x00,
    results := s.results ++ abortedBy s }

end Sys2Proof.Machine
end

