-- ==== Sys2Proof/Machine/Frame.lean ====
section
/-! DEFINITION. The block's functions on byte sequences: `bcc` (spec/40_bcc.md R100), `crc32_reflected` and `byte_reverse`
(spec/41_crc32.md R110 to R116), the frame encoder (spec/42_frame_encode.md R125, R126), what a valid frame is
(spec/10_state.md R37), the parser and classifier (spec/44_classifier.md R171 to R182) and the decoder as a function of the
stream (spec/43_frame_decode.md R157). -/

namespace Sys2Proof.Machine

/-! ## Checksums -/

/-- `bcc` (R100): the running XOR of the bytes, from 0x00. -/
def bcc (bs : List Byte) : Byte := bs.foldl (· ^^^ ·) 0x00

/-- One round (R110): the test is on bit 0 before the logical shift. -/
def crcRound (r : Word32) : Word32 :=
  if r.getLsbD 0 then (r >>> 1) ^^^ Config.CRC_POLY else r >>> 1

/-- `k` rounds. -/
def crcRounds : Nat → Word32 → Word32
  | 0, r => r
  | k + 1, r => crcRounds k (crcRound r)

/-- One byte (R111): into the low byte of the register, then exactly eight rounds. -/
def crcByte (r : Word32) (b : Byte) : Word32 := crcRounds 8 (r ^^^ zext32 b)

/-- `crc32_reflected` (R112): nothing is complemented, reflected or swapped at the end. -/
def crc32Reflected (bs : List Byte) : Word32 := bs.foldl crcByte Config.CRC_INIT

/-- `k(v)` of R116: the fewest whole bytes that hold `v`. -/
def byteReverseLength (v : Word32) : Nat :=
  if v.toNat < 0x100 then 1
  else if v.toNat < 0x10000 then 2
  else if v.toNat < 0x1000000 then 3
  else 4

/-- `byte_reverse` (R116): the fewest whole bytes that hold `v`, least significant first. -/
def byteReverse (v : Word32) : List Byte :=
  [v.extractLsb' 0 8, v.extractLsb' 8 8, v.extractLsb' 16 8, v.extractLsb' 24 8].take (byteReverseLength v)

/-! ## The frame encoder -/

/-- A frame without its checksum, followed by the checksum over it (R76, R125). -/
def withChecksum (p : List Byte) : List Byte := p ++ [bcc p]

/-- `enc_basic` (R125). -/
def encBasicFrame (c : Cfg) (addr cm pm : Byte) : List Byte :=
  withChecksum [c.start, addr, hi8 (BitVec.ofNat 16 Config.BASIC_LEN), lo8 (BitVec.ofNat 16 Config.BASIC_LEN), c.cmt, cm,
    pm, c.endMark]

/-- The length field of an APDU-wrapping frame (R73, R83). -/
def apduLengthField (apdu : List Byte) : Word16 := BitVec.ofNat 16 (apdu.length + Config.LEN_OVERHEAD)

/-- `enc_apdu` (R126), which R126 defines for an APDU of at most `APDU_MAX` bytes. -/
def encApduFrame (c : Cfg) (addr : Byte) (apdu : List Byte) : List Byte :=
  withChecksum
    ([c.start, addr, hi8 (apduLengthField apdu), lo8 (apduLengthField apdu), c.cmt, c.actrl1, c.actrl2] ++ apdu
      ++ [c.endMark])

/-! ## Frames as byte sequences (R9, R37, R71) -/

/-- `F[i]` (R9). The rules use it at indices below `len(F)` only. -/
def byteAt (F : List Byte) (i : Nat) : Byte := F.getD i 0x00

/-- `L = be16(F[2], F[3])` (R54). -/
def frameLength (F : List Byte) : Nat := lengthField (byteAt F 2) (byteAt F 3)

/-- A valid frame (R37, invariant 4). -/
def validFrame (c : Cfg) (F : List Byte) : Bool :=
  decide (3 ≤ frameLength F) && decide (F.length = frameLength F + 6) && byteAt F 0 == c.start
    && byteAt F (F.length - 2) == c.endMark && byteAt F (F.length - 1) == bcc (F.take (F.length - 1))

/-! ## The parser and classifier as functions of a frame -/

/-- `fields(F)` (R171). -/
def frameFields (F : List Byte) : FrameFields where
  addr := byteAt F 1
  len := be16 (byteAt F 2) (byteAt F 3)
  msgType := byteAt F 4
  ctrl1 := byteAt F 5
  ctrl2 := byteAt F 6
  bodyOff := 7
  bodyLen := frameLength F - 3
  endMark := byteAt F (F.length - 2)
  checksum := byteAt F (F.length - 1)

/-- `is_transport_success` (R173). -/
def isTransportSuccess (c : Cfg) (F : List Byte) : Bool := byteAt F 4 == c.pmt

/-- `sw(F)` (R175), which has a value when the frame has at least 11 bytes. -/
def statusWordOf (F : List Byte) : Option Word16 :=
  if F.length < 11 then none else some (be16 (byteAt F (F.length - 4)) (byteAt F (F.length - 3)))

/-- Whether a status word counts as success (R176). -/
def swSuccess (s : Word16) : Bool := Config.SW_OK.contains s

/-- Whether a status word is the continuation word (R176). -/
def swMore (s : Word16) : Bool := s == Config.SW_MORE

/-- `is_apdu_success` with `more` (R176): without transport success the status word is not examined. -/
def apduSuccessOf (c : Cfg) (F : List Byte) : Option (Bool × Bool) :=
  if isTransportSuccess c F then (statusWordOf F).map fun s => (swSuccess s, swMore s) else some (false, false)

/-- `apdu_status_description` (R178), where `sw(F)` has a value. -/
def apduDescriptionOf (c : Cfg) (F : List Byte) : Option (Except OpFault Nat) :=
  (statusWordOf F).map fun s =>
    match c.apduTable.find s with
    | some i => .ok i
    | none => .error (.undocumentedStatusWord s)

/-- Whether a configured offset lies before END (R180, R182). -/
def offsetInFrame (F : List Byte) (off : Byte) : Bool := decide (off.toNat ≤ F.length - 3)

/-- `status_snapshot` (R180), where all three offsets lie before END. The first table that misses is the one reported. -/
def statusSnapshotOf (c : Cfg) (F : List Byte) : Option (Except OpFault (Nat × Nat × Nat)) :=
  if offsetInFrame F c.offSt0 && offsetInFrame F c.offSt1 && offsetInFrame F c.offSt2 then
    some <|
      match c.dispTable.find (byteAt F c.offSt0.toNat), c.stackTable.find (byteAt F c.offSt1.toNat),
        c.captTable.find (byteAt F c.offSt2.toNat) with
      | none, _, _ => .error (.unknownStatusCode .dispenser (byteAt F c.offSt0.toNat))
      | some _, none, _ => .error (.unknownStatusCode .stacker (byteAt F c.offSt1.toNat))
      | some _, some _, none => .error (.unknownStatusCode .captureBox (byteAt F c.offSt2.toNat))
      | some d, some s, some b => .ok (d, s, b)
  else none

/-- The two-byte error code of a frame (R182): the byte at `OFF_E1` is the high one. -/
def errorCodeOf (c : Cfg) (F : List Byte) : Word16 := be16 (byteAt F c.offE1.toNat) (byteAt F c.offE0.toNat)

/-- `error_snapshot` (R182), where both offsets lie before END. -/
def errorSnapshotOf (c : Cfg) (F : List Byte) : Option (Except OpFault (Word16 × Nat)) :=
  if offsetInFrame F c.offE1 && offsetInFrame F c.offE0 then
    some <|
      match c.errTable.find (errorCodeOf c F) with
      | some i => .ok (errorCodeOf c F, i)
      | none => .error (.unknownErrorCode (errorCodeOf c F))
  else none

/-! ## The decoder as a function of the stream (R157) -/

/-- The outcome of a decode of a finite inbound stream (R157). -/
inductive StreamOutcome where
  /-- The stream ends before the decode does. -/
  | waiting
  /-- The decode fails. `ack` is what `DACK` is left at. -/
  | failed (f : OpFault) (ack : Bool)
  /-- The decode succeeds with this frame. -/
  | frame (F : List Byte) (ack : Bool)
  deriving DecidableEq, Repr

/-- R157 once the header `H` of 5 bytes is there: the corrected header is `C`. -/
def decodeStreamAfter (c : Cfg) (S C : List Byte) (ack : Bool) : StreamOutcome × Nat :=
  let t := frameLength C + 6 - C.length
  let F := C ++ (S.drop 5).take t
  let n := frameLength C + 6
  if byteAt C 0 ≠ c.start then (.failed .badStart ack, 5)
  else if ack = false ∧ c.ackAbsent = .desync then (.failed .ackMissing ack, 5)
  else if frameLength C < 3 then (.failed .shortLength ack, 5)
  else if frameLength C + 6 > c.rxCap then (.failed .tooLong ack, 5)
  else if S.length < 5 + t then (.waiting, S.length)
  else if byteAt F (n - 2) ≠ c.endMark then (.failed .badEnd ack, 5 + t)
  else if bcc (F.take (n - 1)) ≠ byteAt F (n - 1) then (.failed .checksumMismatch ack, 5 + t)
  else (.frame F ack, 5 + t)

/-- `decode_stream(S)` (R157): the outcome and the number of bytes consumed. -/
def decodeStream (c : Cfg) (S : List Byte) : StreamOutcome × Nat :=
  if S.length < 5 then (.waiting, S.length)
  else if byteAt S 0 = Config.ACK then decodeStreamAfter c S ((S.take 5).drop 1) true
  else decodeStreamAfter c S (S.take 5) false

end Sys2Proof.Machine
end

