-- ==== Sys2Proof/Machine/Bcc.lean ====
section
/-! DEFINITION. The BCC family (spec/40_bcc.md). -/

namespace Sys2Proof.Machine

/-- `BCC.CLR` (R101). -/
def execBccClr (s : State) : Result := answer .nothing { s with bcc := 0x00 }

/-- `BCC.UPD b` (R102). -/
def execBccUpd (b : Byte) (s : State) : Result := answer .nothing { s with bcc := s.bcc ^^^ b }

/-- `BCC.RD` (R103). -/
def execBccRd (s : State) : Result := answer (.byte s.bcc) s

end Sys2Proof.Machine
end

