-- ==== Sys2Proof/Machine/Decoder.lean ====
section
/-! DEFINITION. The DEC and RX family and the decoder's steps (spec/43_frame_decode.md). -/

namespace Sys2Proof.Machine

/-! ## `DEC` is issued (R143) -/

/-- `DEC` (R143): the decode starts and the host is blocked until it ends (R141, R156). -/
def execDec (s : State) : Result :=
  .next { s with dph := .hdr, dcnt := count17 Config.HDR_READ, rxLen := 0, dack := false, derr := 0x00, rxbuf := [] }

/-! ## The header (R144 to R149) -/

/-- R149: how many more bytes, counted from the corrected header. -/
def startTail (L : Nat) (s : State) : Result :=
  .next { s with dcnt := count17 (L + 6 - s.rxLen.toNat), dph := .tail }

/-- R148: the length, at offsets 2 and 3 of the corrected header. -/
def checkLength (s : State) : Result :=
  withByte s 2 fun h => withByte s 3 fun l =>
    if lengthField h l < 3 then decodeFail .shortLength s
    else if lengthField h l + 6 > s.cfg.rxCap then decodeFail .tooLong s
    else startTail (lengthField h l) s

/-- R147: a frame without its acknowledgment byte. -/
def checkAck (s : State) : Result :=
  if s.dack = false ∧ s.cfg.ackAbsent = .desync then decodeFail .ackMissing s else checkLength s

/-- R146: the start check. -/
def checkStart (s : State) : Result :=
  withByte s 0 fun b => if b ≠ s.cfg.start then decodeFail .badStart s else checkAck s

/-- R145: the acknowledgment byte is stripped. `RXBUF[0..3] <- RXBUF[1..4]`, `RXLEN <- 4`, and what lay above has no value
any more (R24). -/
def stripAck (s : State) (k : State → Result) : Result :=
  withByte s 1 fun b1 => withByte s 2 fun b2 => withByte s 3 fun b3 => withByte s 4 fun b4 =>
    k { s with
        rxbuf := ((((s.rxbuf.write 0 b1).write 1 b2).write 2 b3).write 3 b4).truncate 4, rxLen := 4, dack := true }

/-- R145: only header position 0 is examined. -/
def evalHeader (s : State) : Result :=
  withByte s 0 fun b => if ackFlag b then stripAck s checkStart else checkStart { s with dack := false }

/-! ## The tail (R150 to R152) -/

/-- R152: the checksum, from START through END. -/
def checkChecksum (s : State) : Result :=
  match s.rxbuf.first (s.rxLen.toNat - 1) with
  | some covered =>
    withByte s (s.rxLen.toNat - 1) fun c =>
      if bcc covered ≠ c then decodeFail .checksumMismatch s else decodeDone s
  | none => .fault (.rxbufNoValue (s.rxLen.toNat - 1))

/-- R151: the end marker, tested before the checksum. -/
def validateFrame (s : State) : Result :=
  withByte s (s.rxLen.toNat - 2) fun e => if e ≠ s.cfg.endMark then decodeFail .badEnd s else checkChecksum s

/-! ## The decoder's steps -/

/-- `RXBUF[RXLEN] <- b; RXLEN <- RXLEN + 1; DCNT <- DCNT - 1` (R144, R150). An index of `RX_CAP` or above does not exist
(R24). -/
def storeByte (b : Byte) (s : State) (k : State → Result) : Result :=
  if s.rxLen.toNat < s.cfg.rxCap then
    k { s with rxbuf := s.rxbuf.write s.rxLen.toNat b, rxLen := s.rxLen + 1, dcnt := s.dcnt - 1 }
  else .fault (.rxbufOutside s.rxLen.toNat)

/-- After a byte is stored: the step that finds `DCNT = 0` evaluates the header or validates the frame (R144, R150). -/
def afterByte (s : State) : Result :=
  if s.dcnt = 0 then if s.dph = .hdr then evalHeader s else validateFrame s else .next s

/-- A step of the decoder in a busy phase, on the channel's answer to `RxNext()`: a byte (R144, R150), an error (R154), or
nothing yet, which leaves the decoder where it is (R155). -/
def decoderStep (s : State) : Result :=
  match s.inbound with
  | [] => .next s
  | .nothingYet :: rest => .next { s with inbound := rest }
  | .ioError :: rest => decodeFail .channelIOError { s with inbound := rest }
  | .byte b :: rest => storeByte b { s with inbound := rest, rxPos := s.rxPos + 1 } afterByte

/-! ## Reading the received frame (R158, R159) -/

/-- `RX.LEN` (R158). -/
def execRxLen (s : State) : Result := answer (.count s.rxLen) s

/-- A rule that begins `if DPH ≠ DONE: raise NoFrame` (R159, R170). -/
def withFrame (s : State) (k : Result) : Result := if s.dph = .done then k else raise .noFrame s

/-- `RX.RD index` (R159). -/
def execRxRd (index : Index24) (s : State) : Result :=
  withFrame s <|
    if index.toNat ≥ s.rxLen.toNat then raise .badIndex s else withByte s index.toNat fun b => answer (.byte b) s

end Sys2Proof.Machine
end

