-- ==== Sys2Proof/Machine/Classifier.lean ====
section
/-! DEFINITION. The CLS family (spec/44_classifier.md). Faults are tested in the order each rule writes them (R215). -/

namespace Sys2Proof.Machine

/-- Read two bytes as a big-endian 16-bit number (R55). -/
def withBe16 (s : State) (hiAt loAt : Nat) (k : Word16 → Result) : Result :=
  withByte s hiAt fun h => withByte s loAt fun l => k (be16 h l)

/-- A lookup that raises a fault on a miss (R32, R185). -/
def withEntry {w : Nat} (s : State) (t : Table w) (code : BitVec w) (miss : OpFault) (k : Nat → Result) : Result :=
  match t.find code with
  | some i => k i
  | none => raise miss s

/-- Whether a configured offset lies past the last byte before END (R181, R183). -/
def offsetShort (s : State) (off : Byte) : Bool := decide (off.toNat > s.rxLen.toNat - 3)

/-- The status word of the received frame, `ShortFrame` below 11 bytes (R175, R177, R179). -/
def withStatusWord (s : State) (k : Word16 → Result) : Result :=
  if s.rxLen.toNat < 11 then raise .shortFrame s else withBe16 s (s.rxLen.toNat - 4) (s.rxLen.toNat - 3) k

/-- `CLS.TSUCC` (R174). -/
def execClsTsucc (s : State) : Result :=
  withFrame s <| withByte s 4 fun mt => answer (.bool (mt == s.cfg.pmt)) s

/-- `CLS.ASUCC` (R177): transport success is tested before the frame's length (C9). -/
def execClsAsucc (s : State) : Result :=
  withFrame s <| withByte s 4 fun mt =>
    if mt ≠ s.cfg.pmt then answer (.apduSuccess false false) s
    else withStatusWord s fun sw => answer (.apduSuccess (swSuccess sw) (swMore sw)) s

/-- `CLS.ADESC` (R179). -/
def execClsAdesc (s : State) : Result :=
  withFrame s <| withStatusWord s fun sw =>
    withEntry s s.cfg.apduTable sw (.undocumentedStatusWord sw) fun i => answer (.index i) s

/-- `CLS.STAT` (R181). -/
def execClsStat (s : State) : Result :=
  withFrame s <|
    if offsetShort s s.cfg.offSt0 || offsetShort s s.cfg.offSt1 || offsetShort s s.cfg.offSt2 then raise .shortFrame s
    else
      withByte s s.cfg.offSt0.toNat fun b0 =>
      withEntry s s.cfg.dispTable b0 (.unknownStatusCode .dispenser b0) fun d =>
      withByte s s.cfg.offSt1.toNat fun b1 =>
      withEntry s s.cfg.stackTable b1 (.unknownStatusCode .stacker b1) fun k =>
      withByte s s.cfg.offSt2.toNat fun b2 =>
      withEntry s s.cfg.captTable b2 (.unknownStatusCode .captureBox b2) fun c =>
      answer (.status d k c) s

/-- `CLS.ERR` (R183). -/
def execClsErr (s : State) : Result :=
  withFrame s <|
    if offsetShort s s.cfg.offE1 || offsetShort s s.cfg.offE0 then raise .shortFrame s
    else
      withBe16 s s.cfg.offE1.toNat s.cfg.offE0.toNat fun code =>
      withEntry s s.cfg.errTable code (.unknownErrorCode code) fun i =>
      answer (.errorCode code i) s

/-- `CLS.FIELDS` (R171, R172). -/
def execClsFields (s : State) : Result :=
  withFrame s <|
    withByte s 1 fun addr =>
    withBe16 s 2 3 fun len =>
    withByte s 4 fun msgType =>
    withByte s 5 fun ctrl1 =>
    withByte s 6 fun ctrl2 =>
    withByte s (s.rxLen.toNat - 2) fun endMark =>
    withByte s (s.rxLen.toNat - 1) fun checksum =>
    answer (.fields
      { addr := addr, len := len, msgType := msgType, ctrl1 := ctrl1, ctrl2 := ctrl2, bodyOff := 7,
        bodyLen := len.toNat - 3, endMark := endMark, checksum := checksum }) s

end Sys2Proof.Machine
end

