-- ==== Sys2Proof/Machine/Crc.lean ====
section
/-! DEFINITION. The CRC family (spec/41_crc32.md). -/

namespace Sys2Proof.Machine

/-- `CRC.INIT` (R113). -/
def execCrcInit (s : State) : Result := answer .nothing { s with crc := Config.CRC_INIT }

/-- `CRC.UPD b` (R114). -/
def execCrcUpd (b : Byte) (s : State) : Result := answer .nothing { s with crc := crcByte s.crc b }

/-- `CRC.RD` (R115): the register as it stands, not complemented. -/
def execCrcRd (s : State) : Result := answer (.word s.crc) s

/-- `CRC.BREV` (R117). -/
def execCrcBrev (s : State) : Result := answer (.bytes (byteReverse s.crc)) s

end Sys2Proof.Machine
end

