-- ==== Sys2Proof/Machine/Encoder.lean ====
section
/-! DEFINITION. The ENC family (spec/42_frame_encode.md). -/

namespace Sys2Proof.Machine

/-- `ENC.BASIC addr, cm, pm` (R128). -/
def execEncBasic (addr cm pm : Byte) (s : State) : Result := sendFrame (encBasicFrame s.cfg addr cm pm) s

/-- `ENC.APDU addr, A` (R129): `EncodeRefused` is tested first and writes nothing to the channel. -/
def execEncApdu (addr : Byte) (apdu : List Byte) (s : State) : Result :=
  if apdu.length > Config.APDU_MAX then raise .encodeRefused s else sendFrame (encApduFrame s.cfg addr apdu) s

end Sys2Proof.Machine
end

