-- ==== Sys2Proof/Machine/System.lean ====
section
/-! DEFINITION. The system family (spec/45_system.md): reading a register by number (spec/10_state.md R31, R33). No
operation writes a register by number (R195). -/

namespace Sys2Proof.Machine

/-- Bits 31:24 of `CFG1` (R33): bit 24 is `ACK_ABSENT`, 0 `desync` and 1 `realign`, and the rest are zero. -/
def ackAbsentByte : AckAbsent → Byte
  | .desync => 0x00
  | .realign => 0x01

/-- Four bytes as a 32-bit register, the byte of bits 7:0 first (R33). -/
def word4 (b0 b1 b2 b3 : Byte) : Word32 :=
  BitVec.ofNat 32 (b0.toNat + b1.toNat * 256 + b2.toNat * 65536 + b3.toNat * 16777216)

/-- `CFG0` (R33): `START`, `END`, `CMT`, `PMT`, the first in bits 7:0. -/
def cfg0 (c : Cfg) : Word32 := word4 c.start c.endMark c.cmt c.pmt

/-- `CFG1` (R33): `ACK`, `ACTRL1`, `ACTRL2`, then bit 24 `ACK_ABSENT` and zeros. -/
def cfg1 (c : Cfg) : Word32 := word4 Config.ACK c.actrl1 c.actrl2 (ackAbsentByte c.ackAbsent)

/-- `CFG2` (R33): `OFF_ST0`, `OFF_ST1`, `OFF_ST2`, then zeros. -/
def cfg2 (c : Cfg) : Word32 := word4 c.offSt0 c.offSt1 c.offSt2 0x00

/-- `CFG3` (R33): `OFF_E1`, `OFF_E0`, then zeros. -/
def cfg3 (c : Cfg) : Word32 := word4 c.offE1 c.offE0 0x00 0x00

/-- `zext_32(R(n))` (R196), nothing where `n` names no register (R33). -/
def regValue (n : Byte) (s : State) : Option Word32 :=
  if n = 0 then some ((statusWord s).setWidth 32)
  else if n = 1 then some (zext32 s.bcc)
  else if n = 2 then some s.crc
  else if n = 3 then some (s.rxLen.setWidth 32)
  else if n = 4 then some (s.dcnt.setWidth 32)
  else if n = 5 then some (cfg0 s.cfg)
  else if n = 6 then some (cfg1 s.cfg)
  else if n = 7 then some (cfg2 s.cfg)
  else if n = 8 then some (cfg3 s.cfg)
  else if n = 9 then some (BitVec.ofNat 32 s.cfg.rxCap)
  else none

/-- `REG.RD n` (R196). -/
def execRegRd (n : Byte) (s : State) : Result :=
  match regValue n s with
  | some v => answer (.word v) s
  | none => raise .badReg s

end Sys2Proof.Machine
end

