-- ==== Sys2Proof/Machine/Dispatch.lean ====
section
/-! DEFINITION. One arm for each host operation (spec/30_encoding.md R85). -/

namespace Sys2Proof.Machine

-- What an operation does when the host issues it in a quiet phase (spec/20_memory.md R61).
def exec (i : Instr) (s : State) : Host.Outcome State Fault Refusal :=
  match i with
  | .bccClr => Sys2Proof.Machine.execBccClr s
  | .bccUpd b => Sys2Proof.Machine.execBccUpd b s
  | .bccRd => Sys2Proof.Machine.execBccRd s
  | .crcInit => Sys2Proof.Machine.execCrcInit s
  | .crcUpd b => Sys2Proof.Machine.execCrcUpd b s
  | .crcRd => Sys2Proof.Machine.execCrcRd s
  | .crcBrev => Sys2Proof.Machine.execCrcBrev s
  | .encBasic addr cm pm => Sys2Proof.Machine.execEncBasic addr cm pm s
  | .encApdu addr apdu => Sys2Proof.Machine.execEncApdu addr apdu s
  | .dec => Sys2Proof.Machine.execDec s
  | .rxLen => Sys2Proof.Machine.execRxLen s
  | .rxRd index => Sys2Proof.Machine.execRxRd index s
  | .clsTsucc => Sys2Proof.Machine.execClsTsucc s
  | .clsAsucc => Sys2Proof.Machine.execClsAsucc s
  | .clsAdesc => Sys2Proof.Machine.execClsAdesc s
  | .clsStat => Sys2Proof.Machine.execClsStat s
  | .clsErr => Sys2Proof.Machine.execClsErr s
  | .clsFields => Sys2Proof.Machine.execClsFields s
  | .regRd n => Sys2Proof.Machine.execRegRd n s

end Sys2Proof.Machine
end

