-- ==== Sys2Proof/Machine/Agents.lean ====
section
/-! DEFINITION. Which agent moves (spec/20_memory.md R61; spec/43_frame_decode.md R141): the host issues its next operation
in a quiet phase, the decoder moves in a busy one, and a reset event takes a step of its own
(spec/70_reset_and_hazards.md R230). -/

namespace Sys2Proof.Machine

/-- The host's step in a quiet phase: it issues the next operation of its program. A reserved operation code returns
`IllegalOp` and takes one byte (R86). A host with no operation left issues nothing (R11). -/
def hostStep (s : State) : Result :=
  match decode s.ops with
  | .op i rest => exec i { s with ops := rest }
  | .reserved _ rest => raise .illegalOp { s with ops := rest }
  | .incomplete => .refused .incompleteOperation
  | .nothing => .next s

/-- A step without a reset: the decoder's in a busy phase, else the host's (R61, R141). -/
def blockStep (s : State) : Result := if s.dph.busy then decoderStep s else hostStep s

/-- A step at the next sample of the reset line (R230). -/
def agentStep (s : State) : Result :=
  match s.resetLine with
  | true :: rest => .next (resetEvent { s with resetLine := rest })
  | false :: rest => blockStep { s with resetLine := rest }
  | [] => blockStep s

end Sys2Proof.Machine
end

