-- ==== Sys2Proof/Machine/Step.lean ====
section
/-! DEFINITION. The step of the machine, and the placing of an operation where the step reads its next one. -/

namespace Sys2Proof.Machine

/-- One step of the machine. -/
def step (s : State) : Host.Outcome State Fault Refusal := agentStep s

/-- The state with an operation given as a number put first in the host's program, and the reset line low for the step that
reads it. The decoder is left as it is: in a busy phase the host is blocked and the operation waits (R61). -/
def State.withFetchWord (s : State) (nbits w : Nat) : State :=
  { s with ops := tableBytes nbits w ++ s.ops, resetLine := false :: s.resetLine }

end Sys2Proof.Machine
end

