-- ==== Sys2Proof/Machine/Pseudo.lean ====
section
/-! DEFINITION. The pseudo-operations of spec/30_encoding.md R92: sequences of operations the host issues, with no encoding
of their own. -/

namespace Sys2Proof.Machine

/-- The host issues operations one after the other, each after the previous one returned. None of them is `DEC`. -/
def issueAll : List Instr → State → Result
  | [], s => .next s
  | i :: is, s =>
    match exec i s with
    | .next t => issueAll is t
    | .fault r => .fault r
    | .refused r => .refused r

/-- `BCC.BLK [b0, ..., bk]` (R92). -/
def bccBlk (bs : List Byte) : List Instr := .bccClr :: (bs.map .bccUpd ++ [.bccRd])

/-- `CRC.BLK [b0, ..., bk]` (R92). -/
def crcBlk (bs : List Byte) : List Instr := .crcInit :: (bs.map .crcUpd ++ [.crcRd])

/-- `CRC.BLKREV [b0, ..., bk]` (R92). -/
def crcBlkRev (bs : List Byte) : List Instr := .crcInit :: (bs.map .crcUpd ++ [.crcBrev])

/-- Whether the last operation that returned ended with `Ok`. -/
def lastOk (s : State) : Bool :=
  match s.results.getLast? with
  | some (.ok _) => true
  | some (.fault _) | some .aborted | none => false

/-- An encode and the `DEC` that follows it, which is not issued if the encode faulted (R92). The decode then goes on by the
decoder's steps. -/
def exchange (enc : Instr) (s : State) : Result :=
  match exec enc s with
  | .next t => if lastOk t then exec .dec t else .next t
  | .fault r => .fault r
  | .refused r => .refused r

/-- `XCHG.BASIC addr, cm, pm` (R92). -/
def xchgBasic (addr cm pm : Byte) (s : State) : Result := exchange (.encBasic addr cm pm) s

/-- `XCHG.APDU addr, apdu` (R92). -/
def xchgApdu (addr : Byte) (apdu : List Byte) (s : State) : Result := exchange (.encApdu addr apdu) s

end Sys2Proof.Machine
end

