-- ==== Sys2Proof/Safety.lean ====
section
/-! DEFINITION. What statements speak of: the invariants of every reachable state (spec/10_state.md R37), a received frame,
the operations by what they write, and a safe answer of a step. -/

namespace Sys2Proof.Machine

/-! ## The invariants of R37 -/

/-- The bytes the receive buffer holds, in index order. -/
def State.received (s : State) : List Byte := s.rxbuf.map Prod.snd

/-- The buffer holds values at exactly the indices 0 to `RXLEN - 1` (R24, R25), and they exist (R50). -/
structure BufferOk (s : State) : Prop where
  exact : s.rxbuf = Memory.ofBytes s.received
  length : s.received.length = s.rxLen.toNat
  fits : s.rxLen.toNat ≤ s.cfg.rxCap

/-- R37, 1 -/
structure IdleOk (s : State) : Prop where
  rxLen : s.rxLen = 0
  dcnt : s.dcnt = 0
  dack : s.dack = false
  derr : s.derr = 0x00

/-- R37, 2 -/
structure HdrOk (s : State) : Prop where
  sum : s.rxLen.toNat + s.dcnt.toNat = 5
  low : 1 ≤ s.dcnt.toNat
  high : s.dcnt.toNat ≤ 5
  dack : s.dack = false
  derr : s.derr = 0x00

/-- R37, 3 -/
structure TailOk (s : State) : Prop where
  start : byteAt s.received 0 = s.cfg.start
  header : 4 ≤ s.rxLen.toNat
  low : 1 ≤ s.dcnt.toNat
  derr : s.derr = 0x00
  long : 3 ≤ frameLength s.received
  room : frameLength s.received + 6 ≤ s.cfg.rxCap
  sum : s.rxLen.toNat + s.dcnt.toNat = frameLength s.received + 6

/-- R37, 4 -/
structure DoneOk (s : State) : Prop where
  dcnt : s.dcnt = 0
  derr : s.derr = 0x00
  frame : validFrame s.cfg s.received = true

/-- R37, 5 -/
structure FailOk (s : State) : Prop where
  rxLen : s.rxLen = 0
  dcnt : s.dcnt = 0
  derr : s.derr ≠ 0x00

/-- What R37 says of the phase a state is in. -/
def PhaseOk (s : State) : Prop :=
  match s.dph with
  | .idle => IdleOk s
  | .hdr => HdrOk s
  | .tail => TailOk s
  | .done => DoneOk s
  | .fail => FailOk s

/-- The invariants of R37, with what R24 and R25 say of the buffer. -/
structure BlockInv (s : State) : Prop where
  buffer : BufferOk s
  phase : PhaseOk s

/-! ## A received frame (R170) -/

/-- The receive buffer holds the frame `F` of the last successful decode (R170). -/
structure HoldsFrame (s : State) (F : List Byte) : Prop where
  done : s.dph = .done
  buffer : s.rxbuf = Memory.ofBytes F
  length : s.rxLen.toNat = F.length

/-! ## Operations by what they write -/

/-- The operations that write `BCC` (R20). -/
def writesBcc : Instr → Bool
  | .bccClr | .bccUpd _ => true
  | .bccRd | .crcInit | .crcUpd _ | .crcRd | .crcBrev | .encBasic _ _ _ | .encApdu _ _ | .dec | .rxLen | .rxRd _
  | .clsTsucc | .clsAsucc | .clsAdesc | .clsStat | .clsErr | .clsFields | .regRd _ => false

/-- The operations that write `CRC` (R20). -/
def writesCrc : Instr → Bool
  | .crcInit | .crcUpd _ => true
  | .bccClr | .bccUpd _ | .bccRd | .crcRd | .crcBrev | .encBasic _ _ _ | .encApdu _ _ | .dec | .rxLen | .rxRd _
  | .clsTsucc | .clsAsucc | .clsAdesc | .clsStat | .clsErr | .clsFields | .regRd _ => false

/-- The operations that give the channel a frame (R51). -/
def sends : Instr → Bool
  | .encBasic _ _ _ | .encApdu _ _ => true
  | .bccClr | .bccUpd _ | .bccRd | .crcInit | .crcUpd _ | .crcRd | .crcBrev | .dec | .rxLen | .rxRd _
  | .clsTsucc | .clsAsucc | .clsAdesc | .clsStat | .clsErr | .clsFields | .regRd _ => false

/-! ## Steps -/

/-- No reset event happens at this step (R230). -/
abbrev noReset (s : State) : Prop := s.resetLine.head? ≠ some true

/-- The state with the reset line's next sample taken. -/
def tick (s : State) : State := { s with resetLine := s.resetLine.tail }

/-- A safe answer of a step: the machine goes on. -/
def goesOn : Result → Bool
  | .next _ => true
  | .fault _ | .refused _ => false

/-- The host presents whole operations only (R77). -/
abbrev wholeOperation (s : State) : Prop := decode s.ops ≠ .incomplete

/-- `n` steps of the machine, stopping at the first fault or refusal. -/
def steps : Nat → State → Result
  | 0, s => .next s
  | n + 1, s =>
    match step s with
    | .next t => steps n t
    | .fault r => .fault r
    | .refused r => .refused r

/-- A byte stream as the channel delivers it, with no error and no wait (R157). -/
def delivered (bs : List Byte) : List RxAnswer := bs.map .byte

end Sys2Proof.Machine
end

