-- ==== Sys2Proof/Certificates/Slice0/Obligations.lean ====
section
/-! DEFINITION. The statements for the provers, from the numbered rules of the spec. An equation `exec i s = .next …` says
what the operation changes and, by the fields it does not name, that it changes nothing else. What an operation returns
(R79) is the entry it adds to `results` (assumption 2). -/

open Sys2Proof Sys2Proof.Machine

/-! ## Encoding (spec/30_encoding.md) -/

/-- R77, R78, R81, R82, R85: decoding the bytes of any operation gives it back, with every operand at every value its format
holds, and leaves exactly the bytes after it. -/
def Obligations.DecodeOfEncodeGivesTheOperation : Prop :=
  ∀ (i : Instr) (rest : List Byte), i.wellFormed = true → decode (encode i ++ rest) = .op i rest

/-- The other direction: an operation the decoder reads has the bytes the encoder gives it, and fits its format. -/
def Obligations.DecodedBytesAreTheEncodedOperation : Prop :=
  ∀ (bs rest : List Byte) (i : Instr), decode bs = .op i rest → bs = encode i ++ rest ∧ i.wellFormed = true

/-- Words written out from the encodings of R78 and R85 decode to the operations they stand for, one of each format and one
of each family. -/
def Obligations.WordsOfTheSpecDecode : Prop :=
  decode [0x12] = .op .bccRd [] ∧ decode [0x11, 0xF2] = .op (.bccUpd 0xF2) [] ∧
  decode [0x21, 0x31] = .op (.crcUpd 0x31) [] ∧ decode [0x30, 0x00, 0x30, 0x33] = .op (.encBasic 0x00 0x30 0x33) [] ∧
  decode [0x31, 0x00, 0x00, 0x05, 0x90, 0x60, 0x00, 0x00, 0x00] =
    .op (.encApdu 0x00 [0x90, 0x60, 0x00, 0x00, 0x00]) [] ∧
  decode [0x40, 0x50] = .op .dec [0x50] ∧ decode [0x42, 0x00, 0x00, 0x0A] = .op (.rxRd 10) [] ∧
  decode [0x54] = .op .clsErr [] ∧ decode [0x60, 0x09] = .op (.regRd 9) []

/-- R86: a code outside the map of R85 is reserved: the step that reads it takes one byte, returns `IllegalOp` and changes
nothing else. -/
def Obligations.ReservedCodesReturnIllegalOp : Prop :=
  ∀ (s : State) (code : Byte) (rest : List Byte), noReset s → s.dph.busy = false → s.ops = code :: rest →
    code ∉ [0x10#8, 0x11#8, 0x12#8, 0x20#8, 0x21#8, 0x22#8, 0x23#8, 0x30#8, 0x31#8, 0x40#8, 0x41#8, 0x42#8, 0x50#8,
      0x51#8, 0x52#8, 0x53#8, 0x54#8, 0x55#8, 0x60#8] →
    step s = .next { tick s with ops := rest, results := s.results ++ [.fault .illegalOp] } ∧
      OpFault.illegalOp.code = 0x20

/-- R77: an operation with bytes missing is not an operation: the step that meets it has no meaning. -/
def Obligations.MissingOperandBytesHaveNoMeaning : Prop :=
  (∀ s : State, noReset s → s.dph.busy = false → decode s.ops = .incomplete → step s = .refused .incompleteOperation) ∧
  (∀ (i : Instr) (k : Nat), i.wellFormed = true → 0 < k → k < (encode i).length →
    decode ((encode i).take k) = .incomplete)

/-! ## The step -/

/-- R61, R77: in a quiet phase the step runs the operation that the host's bytes begin with, in the state in which those
bytes are taken and the reset line's sample is taken. -/
def Obligations.StepRunsTheDecodedOperation : Prop :=
  ∀ (s : State) (i : Instr) (rest : List Byte), noReset s → s.dph.busy = false → decode s.ops = .op i rest →
    step s = exec i { tick s with ops := rest }

/-- R61 (b), R141: while a decode runs the host issues nothing, and gets a result only when the decode ends. -/
def Obligations.HostIsBlockedDuringADecode : Prop :=
  ∀ s t : State, s.dph.busy = true → step s = .next t →
    t.ops = s.ops ∧ (t.dph.busy = true → t.results = s.results) ∧
      (t.dph.busy = false → ∃ r, t.results = s.results ++ [r])

/-! ## Reset (spec/70_reset_and_hazards.md) -/

/-- R36, R233: the state after reset holds the values of R36; no index of `RXBUF` holds a value; `STATUS` reads 0. -/
def Obligations.ResetStateHoldsTheSpecValues : Prop :=
  State.reset.bcc = 0x00 ∧ State.reset.crc = 0xFFFFFFFF ∧ (∀ i, State.reset.rxbuf.read i = none) ∧
  State.reset.rxLen = 0 ∧ State.reset.dph = .idle ∧ State.reset.dcnt = 0 ∧ State.reset.dack = false ∧
  State.reset.derr = 0x00 ∧ statusWord State.reset = 0x0000 ∧ bcc [] = State.reset.bcc ∧
  crc32Reflected [] = State.reset.crc

/-- R230, R232, R36: at any moment, in a busy phase too, a reset event sets the block's own state to the values of R36 in
one step and touches neither the channel nor the configuration. -/
def Obligations.ResetEventSetsTheBlockOnly : Prop :=
  ∀ (s : State) (line : List Bool), s.resetLine = true :: line →
    ∃ t, step s = .next t ∧ t.bcc = 0x00 ∧ t.crc = 0xFFFFFFFF ∧ (∀ i, t.rxbuf.read i = none) ∧ t.rxLen = 0 ∧
      t.dph = .idle ∧ t.dcnt = 0 ∧ t.dack = false ∧ t.derr = 0x00 ∧ t.cfg = s.cfg ∧ t.inbound = s.inbound ∧
      t.rxPos = s.rxPos ∧ t.outbound = s.outbound ∧ t.txAnswers = s.txAnswers ∧ t.ops = s.ops ∧ t.resetLine = line

/-- R231: a `DEC` that a reset abandons returns no result code: the host sees `Aborted`, the outcome R231 lets a model give
it (the model's choice, assumption 6), and is unblocked; where no `DEC` was waiting it sees nothing. -/
def Obligations.ResetAbortsAWaitingDec : Prop :=
  ∀ (s : State) (line : List Bool), s.resetLine = true :: line →
    ∃ t, step s = .next t ∧ t.dph.busy = false ∧ Response.aborted.code = none ∧
      (s.dph.busy = true → t.results = s.results ++ [.aborted]) ∧ (s.dph.busy = false → t.results = s.results)

/-! ## BCC family (spec/40_bcc.md) -/

/-- R101 to R103: `BCC.CLR` clears the accumulator, `BCC.UPD` folds one byte into it, so that a run of them folds the XOR of
their bytes into it, and `BCC.RD` returns it and does not clear it. -/
def Obligations.BccOperationsClearFoldAndRead : Prop :=
  (∀ rest, decode (0x10 :: rest) = .op .bccClr rest) ∧
  (∀ b rest, decode (0x11 :: b :: rest) = .op (.bccUpd b) rest) ∧
  (∀ rest, decode (0x12 :: rest) = .op .bccRd rest) ∧
  (∀ s, exec .bccClr s = .next { s with bcc := 0x00, results := s.results ++ [.ok .nothing] }) ∧
  (∀ b s, exec (.bccUpd b) s = .next { s with bcc := s.bcc ^^^ b, results := s.results ++ [.ok .nothing] }) ∧
  (∀ s, exec .bccRd s = .next { s with results := s.results ++ [.ok (.byte s.bcc)] }) ∧
  (∀ (bs : List Byte) (s : State), issueAll (bs.map .bccUpd) s = .next { s with
    bcc := s.bcc ^^^ bcc bs, results := s.results ++ List.replicate bs.length (.ok .nothing) })

/-- R92, R100, R102: `BCC.BLK` over any bytes, from any state, returns their running XOR and leaves it in `BCC`. -/
def Obligations.BccBlockReturnsTheRunningXor : Prop :=
  bcc [] = 0x00 ∧ (∀ S b, bcc (S ++ [b]) = bcc S ^^^ b) ∧
  ∀ (bs : List Byte) (s : State),
    issueAll (bccBlk bs) s = .next { s with
      bcc := bcc bs
      results := s.results ++ List.replicate (bs.length + 1) (.ok .nothing) ++ [.ok (.byte (bcc bs))] }

/-- R104: recomputing the checksum and folding the whole frame to zero are the same test. -/
def Obligations.BccVerifiesByFolding : Prop :=
  (∀ (P : List Byte) (c : Byte), bcc P = c ↔ bcc (P ++ [c]) = 0x00) ∧ ∀ B : List Byte, bcc (B ++ [bcc B]) = 0x00

/-- R105: the arithmetic laws of `bcc`, and what it cannot detect: bytes in another order, and flips (the bits set in `M`)
that reach each bit position in an even number of bytes. -/
def Obligations.BccLaws : Prop :=
  (∀ S T, bcc (S ++ T) = bcc S ^^^ bcc T) ∧ (∀ S T : List Byte, S.Perm T → bcc S = bcc T) ∧
  (∀ S b, bcc (S ++ [b, b]) = bcc S) ∧ (∀ b, bcc [b] = b) ∧
  (∀ S M : List Byte, M.length = S.length → (∀ k, k < 8 → Even (M.countP fun m => m.getLsbD k)) →
    bcc (List.zipWith (· ^^^ ·) S M) = bcc S)

/-! ## CRC family (spec/41_crc32.md) -/

/-- R113 -/
def Obligations.CrcInitLoadsTheInitialValue : Prop :=
  (∀ rest, decode (0x20 :: rest) = .op .crcInit rest) ∧
  ∀ s, exec .crcInit s = .next { s with crc := 0xFFFFFFFF, results := s.results ++ [.ok .nothing] }

/-- R110, R111, R114: the byte goes into the low byte of the register, then eight rounds; the round's test is on bit 0 before
the shift. From the initial value a run of `CRC.UPD` leaves `crc32_reflected` of its bytes. No register value is left
unchanged by every byte. -/
def Obligations.CrcUpdProcessesOneByte : Prop :=
  (∀ b rest, decode (0x21 :: b :: rest) = .op (.crcUpd b) rest) ∧
  (∀ r : Word32, crcRound r = if r.getLsbD 0 = true then (r >>> 1) ^^^ 0xEDB88320#32 else r >>> 1) ∧
  (∀ (b : Byte) (s : State), exec (.crcUpd b) s = .next { s with
    crc := crcRound (crcRound (crcRound (crcRound (crcRound (crcRound (crcRound (crcRound
      (s.crc ^^^ b.setWidth 32))))))))
    results := s.results ++ [.ok .nothing] }) ∧
  (∀ (bs : List Byte) (s : State), s.crc = 0xFFFFFFFF → issueAll (bs.map .crcUpd) s = .next { s with
    crc := crc32Reflected bs, results := s.results ++ List.replicate bs.length (.ok .nothing) }) ∧
  (∀ r, ∃ b, crcByte r b ≠ r) ∧ crcByte 0x00000000 0x00 = 0x00000000

/-- R115, R117: `CRC.RD` returns the register as it stands and `CRC.BREV` its byte reversal; neither changes it. -/
def Obligations.CrcReadsReturnTheRegister : Prop :=
  (∀ rest, decode (0x22 :: rest) = .op .crcRd rest) ∧ (∀ rest, decode (0x23 :: rest) = .op .crcBrev rest) ∧
  (∀ s, exec .crcRd s = .next { s with results := s.results ++ [.ok (.word s.crc)] }) ∧
  (∀ s, exec .crcBrev s = .next { s with results := s.results ++ [.ok (.bytes (byteReverse s.crc))] }) ∧
  byteReverse 0x00000000 = [0x00] ∧ byteReverse 0x00FFFFFF = [0xFF, 0xFF, 0xFF] ∧
  byteReverse 0x00000ABC = [0xBC, 0x0A] ∧ byteReverse 0x340BC6D9 = [0xD9, 0xC6, 0x0B, 0x34]

/-- R92, R112: `CRC.BLK` and `CRC.BLKREV` over any bytes, from any state. -/
def Obligations.CrcBlockReturnsTheReflectedCrc : Prop :=
  crc32Reflected [] = 0xFFFFFFFF ∧ (∀ S b, crc32Reflected (S ++ [b]) = crcByte (crc32Reflected S) b) ∧
  ∀ (bs : List Byte) (s : State),
    issueAll (crcBlk bs) s = .next { s with
      crc := crc32Reflected bs
      results := s.results ++ List.replicate (bs.length + 1) (.ok .nothing) ++ [.ok (.word (crc32Reflected bs))] } ∧
    issueAll (crcBlkRev bs) s = .next { s with
      crc := crc32Reflected bs
      results := s.results ++ List.replicate (bs.length + 1) (.ok .nothing) ++
        [.ok (.bytes (byteReverse (crc32Reflected bs)))] }

/-- R119: a round and a byte are bijections of the register, the byte enters by XOR alone, and the known answers. -/
def Obligations.CrcLaws : Prop :=
  Function.Bijective crcRound ∧ (∀ b, Function.Bijective fun r => crcByte r b) ∧
  (∀ r b, crcByte r b = crcByte (r ^^^ b.setWidth 32) 0x00) ∧
  crc32Reflected [] = 0xFFFFFFFF ∧ crc32Reflected [0x00] = 0x2DFD1072 ∧ crc32Reflected [0xFF] = 0x00FFFFFF ∧
  crc32Reflected [0xFF, 0xFF, 0xFF, 0xFF] = 0x00000000 ∧
  crc32Reflected [0x31, 0x32, 0x33, 0x34, 0x35, 0x36, 0x37, 0x38, 0x39] = 0x340BC6D9

/-- R116: `byte_reverse` gives the fewest whole bytes that hold the value, least significant first: 1 to 4 bytes whose
little-endian value is the register's, the last not zero unless it is the only one, and 4 exactly when bits 31 to 24 are
not all zero. -/
def Obligations.ByteReverseIsTheFewestLittleEndianBytes : Prop :=
  ∀ v : Word32,
    byteReverse v = [v.extractLsb' 0 8, v.extractLsb' 8 8, v.extractLsb' 16 8, v.extractLsb' 24 8].take
      (if v.toNat < 0x100 then 1 else if v.toNat < 0x10000 then 2 else if v.toNat < 0x1000000 then 3 else 4) ∧
    1 ≤ (byteReverse v).length ∧ (byteReverse v).length ≤ 4 ∧
    (byteReverse v).foldr (fun b n => b.toNat + 256 * n) 0 = v.toNat ∧
    (1 < (byteReverse v).length → (byteReverse v).getLast? ≠ some 0x00) ∧
    ((byteReverse v).length = 4 ↔ v.extractLsb' 24 8 ≠ 0x00)

/-! ## Frame encoder (spec/42_frame_encode.md) -/

/-- R125, R127, R128: `ENC.BASIC` gives the nine bytes of the frame to the channel in one write. If the channel answers that
it is written, all of it is on the outbound stream; if it answers an error, a prefix of it is, and the operation returns
`ChannelIOError`. The block's own state keeps. -/
def Obligations.EncBasicSendsItsFrame : Prop :=
  (∀ addr cm pm rest, decode (0x30 :: addr :: cm :: pm :: rest) = .op (.encBasic addr cm pm) rest) ∧
  ∀ (addr cm pm : Byte) (s : State),
    let P := [s.cfg.start, addr, 0x00, 0x03, s.cfg.cmt, cm, pm, s.cfg.endMark]
    let F := P ++ [bcc P]
    (∀ more, s.txAnswers = .ok :: more → exec (.encBasic addr cm pm) s = .next { s with
      outbound := s.outbound ++ [F], txAnswers := more, results := s.results ++ [.ok .nothing] }) ∧
    (∀ sent more, s.txAnswers = .ioError sent :: more → exec (.encBasic addr cm pm) s = .next { s with
      outbound := s.outbound ++ [F.take sent], txAnswers := more, results := s.results ++ [.fault .channelIOError] })

/-- R126, R127, R129: `ENC.APDU` of at most 65532 bytes, as for `ENC.BASIC`, and the refusal of a longer one, which comes
first and writes nothing to the channel. The operation's bytes carry the length of the APDU before it. -/
def Obligations.EncApduSendsItsFrameOrRefuses : Prop :=
  (∀ (addr : Byte) (A rest : List Byte), A.length ≤ 65535 →
    let m : Word16 := BitVec.ofNat 16 A.length
    decode ([0x31, addr, m.extractLsb' 8 8, m.extractLsb' 0 8] ++ A ++ rest) = .op (.encApdu addr A) rest) ∧
  ∀ (addr : Byte) (A : List Byte) (s : State),
    let L : Word16 := BitVec.ofNat 16 (A.length + 3)
    let P := [s.cfg.start, addr, L.extractLsb' 8 8, L.extractLsb' 0 8, s.cfg.cmt, s.cfg.actrl1, s.cfg.actrl2] ++ A ++
      [s.cfg.endMark]
    let F := P ++ [bcc P]
    (A.length ≤ 65532 →
      (∀ more, s.txAnswers = .ok :: more → exec (.encApdu addr A) s = .next { s with
        outbound := s.outbound ++ [F], txAnswers := more, results := s.results ++ [.ok .nothing] }) ∧
      (∀ sent more, s.txAnswers = .ioError sent :: more → exec (.encApdu addr A) s = .next { s with
        outbound := s.outbound ++ [F.take sent], txAnswers := more, results := s.results ++ [.fault .channelIOError] })) ∧
    (65532 < A.length →
      exec (.encApdu addr A) s = .next { s with results := s.results ++ [.fault .encodeRefused] })

/-- R51: where a state lists no answer of the channel to a write, the answer is free (the model's choice of form,
assumption 4): the encode operations complete with one answer or the other, a prefix of the frame on the outbound stream
after an error. -/
def Obligations.UnlistedWriteAnswersAreFree : Prop :=
  ∀ (s : State) (i : Instr) (F : List Byte), s.txAnswers = [] →
    ((∃ addr cm pm, i = .encBasic addr cm pm ∧ F = encBasicFrame s.cfg addr cm pm) ∨
      (∃ addr A, i = .encApdu addr A ∧ A.length ≤ 65532 ∧ F = encApduFrame s.cfg addr A)) →
    exec i s = .next { s with outbound := s.outbound ++ [F], results := s.results ++ [.ok .nothing] } ∨
    ∃ sent, exec i s = .next { s with
      outbound := s.outbound ++ [F.take sent], results := s.results ++ [.fault .channelIOError] }

/-- R130: what every frame of the encoder satisfies. -/
def Obligations.EncodedFramesAreWellFormed : Prop :=
  ∀ (c : Cfg) (F : List Byte),
    ((∃ addr cm pm, F = encBasicFrame c addr cm pm) ∨
      (∃ addr A, A.length ≤ 65532 ∧ F = encApduFrame c addr A)) →
    9 ≤ F.length ∧ byteAt F 0 = c.start ∧ byteAt F (F.length - 2) = c.endMark ∧
      (be16 (byteAt F 2) (byteAt F 3)).toNat = F.length - 6 ∧ byteAt F 4 = c.cmt ∧
      bcc (F.take (F.length - 1)) = byteAt F (F.length - 1)

/-! ## Frame decoder (spec/43_frame_decode.md) -/

/-- R143: what `DEC` does when it is issued. No index of `RXBUF` holds a value then. -/
def Obligations.DecStartsTheDecoder : Prop :=
  (∀ rest, decode (0x40 :: rest) = .op .dec rest) ∧
  ∀ s, ∃ t, exec .dec s = .next t ∧
    t = { s with dph := .hdr, dcnt := 5, rxLen := 0, dack := false, derr := 0x00, rxbuf := t.rxbuf } ∧
    ∀ i, t.rxbuf.read i = none

/-- R144, R150: a byte that is not the last of its phase is stored at index `RXLEN`, and nothing else of the buffer
changes. -/
def Obligations.DecoderStoresOneByte : Prop :=
  ∀ (s : State) (b : Byte) (more : List RxAnswer), noReset s → s.dph.busy = true → s.inbound = .byte b :: more →
    s.rxLen.toNat < s.cfg.rxCap → s.dcnt ≠ 1 →
    ∃ t, step s = .next t ∧
      t = { tick s with
        inbound := more, rxPos := s.rxPos + 1, rxLen := s.rxLen + 1, dcnt := s.dcnt - 1, rxbuf := t.rxbuf } ∧
      t.rxbuf.read s.rxLen.toNat = some b ∧ ∀ i, i ≠ s.rxLen.toNat → t.rxbuf.read i = s.rxbuf.read i

/-- R144 to R149, R153, R156: the step of the fifth header byte strips a leading acknowledgment byte, makes the checks of
the header in their order, and either ends the decode or counts the bytes that remain. That index 4 holds no value after a
strip is the model's reading of R24 (assumption 9): R145 writes indices 0 to 3 only. -/
def Obligations.FifthHeaderByteIsEvaluated : Prop :=
  ∀ (s : State) (h0 h1 h2 h3 h4 : Byte) (more : List RxAnswer), noReset s → s.dph = .hdr →
    s.rxbuf = Memory.ofBytes [h0, h1, h2, h3] → s.rxLen = 4 → s.dcnt = 1 → s.inbound = .byte h4 :: more →
    let C := if h0 = 0x06 then [h1, h2, h3, h4] else [h0, h1, h2, h3, h4]
    let L := (be16 (byteAt C 2) (byteAt C 3)).toNat
    let failed (f : OpFault) (code : Byte) : State := { tick s with
      inbound := more, rxPos := s.rxPos + 1, dph := .fail, derr := code, rxLen := 0, dcnt := 0, rxbuf := [],
      dack := decide (h0 = 0x06), results := s.results ++ [.fault f] }
    step s =
      if byteAt C 0 ≠ s.cfg.start then .next (failed .badStart 0x01)
      else if h0 ≠ 0x06 ∧ s.cfg.ackAbsent = .desync then .next (failed .ackMissing 0x02)
      else if L < 3 then .next (failed .shortLength 0x03)
      else if L + 6 > s.cfg.rxCap then .next (failed .tooLong 0x04)
      else .next { tick s with
        inbound := more, rxPos := s.rxPos + 1, dph := .tail, rxbuf := Memory.ofBytes C,
        rxLen := BitVec.ofNat 17 C.length, dack := decide (h0 = 0x06),
        dcnt := BitVec.ofNat 17 (if h0 = 0x06 then L + 2 else L + 1) }

/-- R150 to R153, R156: the step of the last tail byte tests the end marker, then the checksum, and `DEC` returns. -/
def Obligations.LastTailByteIsValidated : Prop :=
  ∀ (s : State) (G : List Byte) (b : Byte) (more : List RxAnswer), noReset s → s.dph = .tail →
    s.rxbuf = Memory.ofBytes G → s.rxLen.toNat = G.length → 1 ≤ G.length → G.length < s.cfg.rxCap → s.dcnt = 1 →
    s.inbound = .byte b :: more →
    let F := G ++ [b]
    let failed (f : OpFault) (code : Byte) : State := { tick s with
      inbound := more, rxPos := s.rxPos + 1, dph := .fail, derr := code, rxLen := 0, dcnt := 0, rxbuf := [],
      results := s.results ++ [.fault f] }
    step s =
      if byteAt F (F.length - 2) ≠ s.cfg.endMark then .next (failed .badEnd 0x05)
      else if bcc (F.take (F.length - 1)) ≠ b then .next (failed .checksumMismatch 0x08)
      else .next { tick s with
        inbound := more, rxPos := s.rxPos + 1, dph := .done, rxbuf := Memory.ofBytes F, rxLen := s.rxLen + 1, dcnt := 0,
        results := s.results ++ [.ok (.count (s.rxLen + 1))] }

/-- R154: an error of the channel ends a running decode; in `HDR`, where R37 holds, `DACK` is 0. -/
def Obligations.ChannelErrorEndsTheDecode : Prop :=
  ∀ (s : State) (more : List RxAnswer), noReset s → s.dph.busy = true → s.inbound = .ioError :: more →
    step s = .next { tick s with
      inbound := more, dph := .fail, derr := 0x18, rxLen := 0, dcnt := 0, rxbuf := [],
      results := s.results ++ [.fault .channelIOError] } ∧
    (s.dph = .hdr → BlockInv s → s.dack = false)

/-- R155: without an answer of the channel a running decode holds, for as many steps as there is none. -/
def Obligations.DecoderWaitsForTheChannel : Prop :=
  (∀ s : State, s.resetLine = [] → s.dph.busy = true → s.inbound = [] → ∀ n, steps n s = .next s) ∧
  (∀ (s : State) (more : List RxAnswer), noReset s → s.dph.busy = true → s.inbound = .nothingYet :: more →
    step s = .next { tick s with inbound := more })

/-- R143 to R157: `DEC`, issued in any quiet phase, run step by step over an inbound stream that begins with the bytes `S`,
does what the function `decode_stream` says of `S`: it waits having consumed all of `S`, or fails, or receives the frame,
having consumed the number of bytes the function gives and none after them. -/
def Obligations.DecRunsAsTheStreamFunction : Prop :=
  ∀ (s : State) (rest S : List Byte) (more : List RxAnswer), s.resetLine = [] → s.dph.busy = false →
    s.ops = 0x40 :: rest → s.inbound = delivered S ++ more →
    match decodeStream s.cfg S with
    | (.waiting, n) => ∃ t, steps (n + 1) s = .next t ∧ n = S.length ∧ t.dph.busy = true ∧ t.inbound = more ∧
        t.rxPos = s.rxPos + n ∧ t.results = s.results ∧ t.derr = 0x00 ∧ t.bcc = s.bcc ∧ t.crc = s.crc
    | (.failed f ack, n) => steps (n + 1) s = .next { s with
        ops := rest, dph := .fail, derr := f.code, rxbuf := [], rxLen := 0, dcnt := 0, dack := ack,
        inbound := delivered (S.drop n) ++ more, rxPos := s.rxPos + n, results := s.results ++ [.fault f] }
    | (.frame F ack, n) => steps (n + 1) s = .next { s with
        ops := rest, dph := .done, derr := 0x00, rxbuf := Memory.ofBytes F, rxLen := BitVec.ofNat 17 F.length, dcnt := 0,
        dack := ack, inbound := delivered (S.drop n) ++ more, rxPos := s.rxPos + n,
        results := s.results ++ [.ok (.count (BitVec.ofNat 17 F.length))] }

/-- R131: the two halves of the codec agree: a frame of the encoder that fits the buffer is received whole, after an
acknowledgment byte or, under `realign`, without one; under `desync` a frame without one is refused after 5 bytes. -/
def Obligations.EncodedFramesAreReceived : Prop :=
  ∀ (s : State) (F rest : List Byte) (more : List RxAnswer),
    ((∃ addr cm pm, F = encBasicFrame s.cfg addr cm pm) ∨
      (∃ addr A, A.length ≤ 65532 ∧ F = encApduFrame s.cfg addr A)) →
    F.length ≤ s.cfg.rxCap → s.resetLine = [] → s.dph.busy = false → s.ops = 0x40 :: rest →
    let received (ack : Bool) (n : Nat) : State := { s with
      ops := rest, dph := .done, derr := 0x00, rxbuf := Memory.ofBytes F, rxLen := BitVec.ofNat 17 F.length, dcnt := 0,
      dack := ack, inbound := more, rxPos := s.rxPos + n,
      results := s.results ++ [.ok (.count (BitVec.ofNat 17 F.length))] }
    (s.inbound = delivered (0x06 :: F) ++ more → steps (F.length + 2) s = .next (received true (F.length + 1))) ∧
    (s.cfg.ackAbsent = .realign → s.inbound = delivered F ++ more →
      steps (F.length + 1) s = .next (received false F.length)) ∧
    (s.cfg.ackAbsent = .desync → s.inbound = delivered F ++ more → steps 6 s = .next { s with
      ops := rest, dph := .fail, derr := 0x02, rxbuf := [], rxLen := 0, dcnt := 0, dack := false,
      inbound := delivered (F.drop 5) ++ more, rxPos := s.rxPos + 5, results := s.results ++ [.fault .ackMissing] })

/-- R160 (c), R37: a frame that a decode gives is valid, fits the buffer, and is what stood on the stream after the
acknowledgment byte, if one was stripped. -/
def Obligations.DecodedFramesAreValid : Prop :=
  ∀ (c : Cfg) (S F : List Byte) (ack : Bool) (n : Nat), decodeStream c S = (.frame F ack, n) →
    validFrame c F = true ∧ F.length ≤ c.rxCap ∧ n ≤ S.length ∧ S.take n = (if ack then [0x06] else []) ++ F ∧
      (ack = false → c.ackAbsent = .realign)

/-- R160 (d), R130: every valid frame that fits the buffer is accepted after an acknowledgment byte, whatever its message
type, control bytes and body are. -/
def Obligations.ValidFramesAreAccepted : Prop :=
  ∀ (c : Cfg) (F T : List Byte), validFrame c F = true → F.length ≤ c.rxCap →
    decodeStream c (0x06 :: F ++ T) = (.frame F true, F.length + 1) ∧
    (c.ackAbsent = .realign → decodeStream c (F ++ T) = (.frame F false, F.length))

/-- R160 (b), R214: what a failed decode has consumed: 5 bytes on a fault of the header, and the acknowledgment byte and the
declared frame on a fault found at its end. -/
def Obligations.FailedDecodesConsumeWhatTheRuleSays : Prop :=
  ∀ (c : Cfg) (S : List Byte) (f : OpFault) (ack : Bool) (n : Nat), decodeStream c S = (.failed f ack, n) →
    (n = 5 ∧ (f = .badStart ∨ f = .ackMissing ∧ c.ackAbsent = .desync ∧ ack = false ∨ f = .shortLength ∨ f = .tooLong)) ∨
    ((f = .badEnd ∨ f = .checksumMismatch) ∧
      n = if ack then (be16 (byteAt S 3) (byteAt S 4)).toNat + 7 else (be16 (byteAt S 2) (byteAt S 3)).toNat + 6)

/-- R160 (a), (e): bytes that follow what a decode consumed change nothing of its outcome. -/
def Obligations.LaterBytesDoNotMatter : Prop :=
  ∀ (c : Cfg) (S T : List Byte), (decodeStream c S).1 ≠ .waiting →
    decodeStream c (S ++ T) = decodeStream c S ∧
      decodeStream c (S.take (decodeStream c S).2) = decodeStream c S

/-! ## Reading the received frame -/

/-- R158, with what R25 and R37 say of the count it returns. -/
def Obligations.RxLenReturnsTheCount : Prop :=
  (∀ rest, decode (0x41 :: rest) = .op .rxLen rest) ∧
  (∀ s, exec .rxLen s = .next { s with results := s.results ++ [.ok (.count s.rxLen)] }) ∧
  ∀ s, BlockInv s → (s.dph = .idle ∨ s.dph = .fail → s.rxLen = 0) ∧
    (s.dph = .done → s.rxLen.toNat = (be16 (byteAt s.received 2) (byteAt s.received 3)).toNat + 6)

/-- R159: `NoFrame`, then `BadIndex`, then the byte at the index, most significant index byte first. -/
def Obligations.RxRdReadsTheIndexedByte : Prop :=
  (∀ i1 i2 i3 rest, ∃ i, decode (0x42 :: i1 :: i2 :: i3 :: rest) = .op (.rxRd i) rest ∧
    i.toNat = i1.toNat * 65536 + i2.toNat * 256 + i3.toNat) ∧
  (∀ s i, s.dph ≠ .done → exec (.rxRd i) s = .next { s with results := s.results ++ [.fault .noFrame] }) ∧
  (∀ s i, s.dph = .done → s.rxLen.toNat ≤ i.toNat →
    exec (.rxRd i) s = .next { s with results := s.results ++ [.fault .badIndex] }) ∧
  (∀ s i b, s.dph = .done → i.toNat < s.rxLen.toNat → s.rxbuf.read i.toNat = some b →
    exec (.rxRd i) s = .next { s with results := s.results ++ [.ok (.byte b)] })

/-! ## Classifier (spec/44_classifier.md) -/

/-- R171, R172: `NoFrame` without a frame; else the slots of the frame. -/
def Obligations.ClsFieldsSplitsTheFrame : Prop :=
  (∀ rest, decode (0x55 :: rest) = .op .clsFields rest) ∧
  (∀ s, s.dph ≠ .done → exec .clsFields s = .next { s with results := s.results ++ [.fault .noFrame] }) ∧
  ∀ (s : State) (F : List Byte), HoldsFrame s F → 9 ≤ F.length →
    exec .clsFields s = .next { s with results := s.results ++ [.ok (.fields
      { addr := byteAt F 1, len := be16 (byteAt F 2) (byteAt F 3), msgType := byteAt F 4, ctrl1 := byteAt F 5,
        ctrl2 := byteAt F 6, bodyOff := 7, bodyLen := (be16 (byteAt F 2) (byteAt F 3)).toNat - 3,
        endMark := byteAt F (F.length - 2), checksum := byteAt F (F.length - 1) })] }

/-- R173, R174: `NoFrame` without a frame; else whether the byte at offset 4 is `PMT`. -/
def Obligations.ClsTsuccComparesTheMessageType : Prop :=
  (∀ rest, decode (0x50 :: rest) = .op .clsTsucc rest) ∧
  (∀ s, s.dph ≠ .done → exec .clsTsucc s = .next { s with results := s.results ++ [.fault .noFrame] }) ∧
  ∀ (s : State) (F : List Byte), HoldsFrame s F → 9 ≤ F.length →
    exec .clsTsucc s = .next { s with results := s.results ++ [.ok (.bool (decide (byteAt F 4 = s.cfg.pmt)))] }

/-- R175 to R177: `NoFrame` without a frame; transport success first, then the length, then the word against the three
successes; `more` for 0x91AF only. -/
def Obligations.ClsAsuccTestsTheStatusWord : Prop :=
  (∀ rest, decode (0x51 :: rest) = .op .clsAsucc rest) ∧
  (∀ s, s.dph ≠ .done → exec .clsAsucc s = .next { s with results := s.results ++ [.fault .noFrame] }) ∧
  ∀ (s : State) (F : List Byte), HoldsFrame s F → 9 ≤ F.length →
    let sw := be16 (byteAt F (F.length - 4)) (byteAt F (F.length - 3))
    exec .clsAsucc s = .next { s with results := s.results ++ [
      if byteAt F 4 ≠ s.cfg.pmt then .ok (.apduSuccess false false)
      else if F.length < 11 then .fault .shortFrame
      else .ok (.apduSuccess (decide (sw = 0x9100 ∨ sw = 0x9000 ∨ sw = 0x91AF)) (decide (sw = 0x91AF)))] }

/-- R178, R179: `NoFrame`, then `ShortFrame`; then the status word's description index, or the word itself as a reportable
miss; no transport success is needed. -/
def Obligations.ClsAdescLooksUpTheStatusWord : Prop :=
  (∀ rest, decode (0x52 :: rest) = .op .clsAdesc rest) ∧
  (∀ s, s.dph ≠ .done → exec .clsAdesc s = .next { s with results := s.results ++ [.fault .noFrame] }) ∧
  ∀ (s : State) (F : List Byte), HoldsFrame s F → 9 ≤ F.length →
    let sw := be16 (byteAt F (F.length - 4)) (byteAt F (F.length - 3))
    (F.length < 11 → exec .clsAdesc s = .next { s with results := s.results ++ [.fault .shortFrame] }) ∧
    (11 ≤ F.length → s.cfg.apduTable.find sw = none →
      exec .clsAdesc s = .next { s with results := s.results ++ [.fault (.undocumentedStatusWord sw)] }) ∧
    (11 ≤ F.length → ∀ i, s.cfg.apduTable.find sw = some i →
      exec .clsAdesc s = .next { s with results := s.results ++ [.ok (.index i)] })

/-- R180, R181: `NoFrame` without a frame; the offsets first; then the first of dispenser, stacker, capture box that its table
misses; then the three indices. -/
def Obligations.ClsStatLooksUpTheThreeBytes : Prop :=
  (∀ rest, decode (0x53 :: rest) = .op .clsStat rest) ∧
  (∀ s, s.dph ≠ .done → exec .clsStat s = .next { s with results := s.results ++ [.fault .noFrame] }) ∧
  ∀ (s : State) (F : List Byte), HoldsFrame s F → 9 ≤ F.length →
    let b0 := byteAt F s.cfg.offSt0.toNat
    let b1 := byteAt F s.cfg.offSt1.toNat
    let b2 := byteAt F s.cfg.offSt2.toNat
    let inFrame := s.cfg.offSt0.toNat ≤ F.length - 3 ∧ s.cfg.offSt1.toNat ≤ F.length - 3 ∧
      s.cfg.offSt2.toNat ≤ F.length - 3
    let returns (r : Response) := exec .clsStat s = .next { s with results := s.results ++ [r] }
    (¬ inFrame → returns (.fault .shortFrame)) ∧
    (inFrame → s.cfg.dispTable.find b0 = none → returns (.fault (.unknownStatusCode .dispenser b0))) ∧
    (∀ d, inFrame → s.cfg.dispTable.find b0 = some d → s.cfg.stackTable.find b1 = none →
      returns (.fault (.unknownStatusCode .stacker b1))) ∧
    (∀ d k, inFrame → s.cfg.dispTable.find b0 = some d → s.cfg.stackTable.find b1 = some k →
      s.cfg.captTable.find b2 = none → returns (.fault (.unknownStatusCode .captureBox b2))) ∧
    (∀ d k c, inFrame → s.cfg.dispTable.find b0 = some d → s.cfg.stackTable.find b1 = some k →
      s.cfg.captTable.find b2 = some c → returns (.ok (.status d k c)))

/-- R182, R183: `NoFrame` without a frame; the offsets first; then the code, the byte at `OFF_E1` high, in its table or
reported as it is. -/
def Obligations.ClsErrLooksUpTheErrorCode : Prop :=
  (∀ rest, decode (0x54 :: rest) = .op .clsErr rest) ∧
  (∀ s, s.dph ≠ .done → exec .clsErr s = .next { s with results := s.results ++ [.fault .noFrame] }) ∧
  ∀ (s : State) (F : List Byte), HoldsFrame s F → 9 ≤ F.length →
    let code := be16 (byteAt F s.cfg.offE1.toNat) (byteAt F s.cfg.offE0.toNat)
    let inFrame := s.cfg.offE1.toNat ≤ F.length - 3 ∧ s.cfg.offE0.toNat ≤ F.length - 3
    let returns (r : Response) := exec .clsErr s = .next { s with results := s.results ++ [r] }
    (¬ inFrame → returns (.fault .shortFrame)) ∧
    (inFrame → s.cfg.errTable.find code = none → returns (.fault (.unknownErrorCode code))) ∧
    (∀ i, inFrame → s.cfg.errTable.find code = some i → returns (.ok (.errorCode code i)))

/-- R7 (b), R184: the classification table, for a frame that has a status word: what `CLS.ADESC` returns for each word of the
table and for any other, and what `CLS.ASUCC` returns if the frame is a transport success, and if it is not. -/
def Obligations.ClassificationTableHolds : Prop :=
  ∀ (s : State) (F : List Byte), HoldsFrame s F → 11 ≤ F.length →
    let sw := be16 (byteAt F (F.length - 4)) (byteAt F (F.length - 3))
    let asucc (ok more : Bool) :=
      byteAt F 4 = s.cfg.pmt → exec .clsAsucc s = .next { s with results := s.results ++ [.ok (.apduSuccess ok more)] }
    let adescFound := ∃ i, exec .clsAdesc s = .next { s with results := s.results ++ [.ok (.index i)] }
    let adescMissed := exec .clsAdesc s = .next { s with results := s.results ++ [.fault (.undocumentedStatusWord sw)] }
    (sw = 0x9100 → asucc true false ∧ adescFound) ∧ (sw = 0x9000 → asucc true false ∧ adescFound) ∧
    (sw = 0x91AF → asucc true true ∧ adescFound) ∧ (sw = 0x91AE → asucc false false ∧ adescFound) ∧
    (sw = 0x6A82 → asucc false false ∧ adescMissed) ∧
    (sw ≠ 0x9100 → sw ≠ 0x9000 → sw ≠ 0x91AF → asucc false false ∧
      ((s.cfg.apduTable.find sw).isSome = true → adescFound) ∧ (s.cfg.apduTable.find sw = none → adescMissed)) ∧
    (byteAt F 4 ≠ s.cfg.pmt →
      exec .clsAsucc s = .next { s with results := s.results ++ [.ok (.apduSuccess false false)] })

/-! ## Register access (spec/45_system.md, spec/10_state.md) -/

/-- R196, R33, R31: `REG.RD` returns each register by number, zero-extended; a number of 10 or more names none. -/
def Obligations.RegRdReturnsEachRegister : Prop :=
  (∀ n rest, decode (0x60 :: n :: rest) = .op (.regRd n) rest) ∧
  ∀ s : State,
    let returns (n : Byte) (holds : Word32 → Prop) :=
      ∃ v, exec (.regRd n) s = .next { s with results := s.results ++ [.ok (.word v)] } ∧ holds v
    returns 0 (fun v => v.extractLsb' 0 3 = s.dph.code ∧ v.extractLsb' 3 1 = BitVec.ofBool s.dack ∧ v.extractLsb' 4 4 = 0 ∧
      v.extractLsb' 8 8 = s.derr ∧ v.extractLsb' 16 16 = 0) ∧
    returns 1 (fun v => v.toNat = s.bcc.toNat) ∧ returns 2 (fun v => v = s.crc) ∧
    returns 3 (fun v => v.toNat = s.rxLen.toNat) ∧ returns 4 (fun v => v.toNat = s.dcnt.toNat) ∧
    returns 5 (fun v => v.extractLsb' 0 8 = s.cfg.start ∧ v.extractLsb' 8 8 = s.cfg.endMark ∧
      v.extractLsb' 16 8 = s.cfg.cmt ∧ v.extractLsb' 24 8 = s.cfg.pmt) ∧
    returns 6 (fun v => v.extractLsb' 0 8 = 0x06 ∧ v.extractLsb' 8 8 = s.cfg.actrl1 ∧ v.extractLsb' 16 8 = s.cfg.actrl2 ∧
      v.extractLsb' 24 1 = (if s.cfg.ackAbsent = .realign then 1 else 0) ∧ v.extractLsb' 25 7 = 0) ∧
    returns 7 (fun v => v.extractLsb' 0 8 = s.cfg.offSt0 ∧ v.extractLsb' 8 8 = s.cfg.offSt1 ∧
      v.extractLsb' 16 8 = s.cfg.offSt2 ∧ v.extractLsb' 24 8 = 0) ∧
    returns 8 (fun v => v.extractLsb' 0 8 = s.cfg.offE1 ∧ v.extractLsb' 8 8 = s.cfg.offE0 ∧ v.extractLsb' 16 16 = 0) ∧
    returns 9 (fun v => v.toNat = s.cfg.rxCap) ∧
    ∀ n : Byte, 10 ≤ n.toNat → exec (.regRd n) s = .next { s with results := s.results ++ [.fault .badReg] }

/-! ## Faults (spec/60_exceptions.md) -/

/-- R205: the result codes, each fault its own, and none of them the code of `Ok`. -/
def Obligations.ResultCodesAreTheTables : Prop :=
  (∀ v, (Response.ok v).code = some 0x00) ∧
  [OpFault.badStart, .ackMissing, .shortLength, .tooLong, .badEnd, .checksumMismatch].map OpFault.code =
    [0x01, 0x02, 0x03, 0x04, 0x05, 0x08] ∧
  (∀ w, (OpFault.undocumentedStatusWord w).code = 0x10) ∧ (∀ w b, (OpFault.unknownStatusCode w b).code = 0x11) ∧
  (∀ w, (OpFault.unknownErrorCode w).code = 0x12) ∧
  [OpFault.channelIOError, .illegalOp, .encodeRefused, .noFrame, .shortFrame, .badIndex, .badReg].map OpFault.code =
    [0x18, 0x20, 0x21, 0x22, 0x23, 0x24, 0x25] ∧
  ∀ f : OpFault, f.code ∈ [0x01#8, 0x02#8, 0x03#8, 0x04#8, 0x05#8, 0x08#8, 0x10#8, 0x11#8, 0x12#8, 0x18#8, 0x20#8, 0x21#8,
    0x22#8, 0x23#8, 0x24#8, 0x25#8]

/-- R205 to R212: the column "Raised by" of the table of result codes: which operations, and which steps of the decoder, a
fault can come from, and `AckMissing` only under `desync`. -/
def Obligations.FaultsComeFromTheirOperations : Prop :=
  (∀ (i : Instr) (s t : State) (f : OpFault), exec i s = .next t → t.results = s.results ++ [.fault f] →
    match f with
    | .badStart | .ackMissing | .shortLength | .tooLong | .badEnd | .checksumMismatch | .illegalOp => False
    | .undocumentedStatusWord _ => i = .clsAdesc
    | .unknownStatusCode _ _ => i = .clsStat
    | .unknownErrorCode _ => i = .clsErr
    | .channelIOError => sends i = true
    | .encodeRefused => ∃ addr A, i = .encApdu addr A ∧ 65532 < A.length
    | .noFrame => s.dph ≠ .done ∧
        (i ∈ [.clsTsucc, .clsAsucc, .clsAdesc, .clsStat, .clsErr, .clsFields] ∨ ∃ n, i = .rxRd n)
    | .shortFrame => i ∈ [Instr.clsAsucc, .clsAdesc, .clsStat, .clsErr]
    | .badIndex => ∃ n, i = .rxRd n ∧ s.rxLen.toNat ≤ n.toNat
    | .badReg => ∃ n, i = .regRd n ∧ 10 ≤ n.toNat) ∧
  (∀ (s t : State) (f : OpFault), noReset s → s.dph.busy = true → step s = .next t →
    t.results = s.results ++ [.fault f] →
    f ∈ [.badStart, .ackMissing, .shortLength, .tooLong, .badEnd, .checksumMismatch, .channelIOError] ∧
      (f = .ackMissing → s.cfg.ackAbsent = .desync) ∧ (f = .channelIOError → s.inbound.head? = some .ioError))

/-- R217: an operation that ends with a fault, an encode apart, leaves the whole state as it was; an encode leaves the
block's own state. -/
def Obligations.FaultingOperationsChangeNothing : Prop :=
  ∀ (i : Instr) (s t : State) (f : OpFault), exec i s = .next t → t.results = s.results ++ [.fault f] →
    (sends i = false → t = { s with results := t.results }) ∧
    t = { s with results := t.results, outbound := t.outbound, txAnswers := t.txAnswers }

/-- R79: every operation but `DEC` returns exactly one result; `DEC` returns none until its decode ends. -/
def Obligations.EveryOperationReturnsOneResult : Prop :=
  ∀ (i : Instr) (s t : State), exec i s = .next t →
    if i = .dec then t.results = s.results else ∃ r, t.results = s.results ++ [r]

/-! ## What operations leave alone -/

/-- R20 to R22, R60, R170, R237: the frame of every operation. `BCC` and `CRC` change only by the operations R20 names for
them; the buffer and the decoder's registers only by `DEC`; the outbound stream only by an encode; and no operation takes
an inbound byte or changes the configuration. -/
def Obligations.OperationsKeepWhatTheyDoNotWrite : Prop :=
  ∀ (i : Instr) (s t : State), exec i s = .next t →
    (writesBcc i = false → t.bcc = s.bcc) ∧ (writesCrc i = false → t.crc = s.crc) ∧
    (i ≠ .dec → (∀ a, t.rxbuf.read a = s.rxbuf.read a) ∧ t.rxLen = s.rxLen ∧ t.dph = s.dph ∧ t.dcnt = s.dcnt ∧
      t.dack = s.dack ∧ t.derr = s.derr) ∧
    (sends i = false → t.outbound = s.outbound ∧ t.txAnswers = s.txAnswers) ∧
    t.inbound = s.inbound ∧ t.rxPos = s.rxPos ∧ t.cfg = s.cfg ∧ t.ops = s.ops

/-- R5, R234: no step of any agent, a reset event included, changes the configuration. -/
def Obligations.NoStepChangesTheConfiguration : Prop := ∀ s t : State, step s = .next t → t.cfg = s.cfg

/-- R51, R61 (d), R127: a step adds at most one entry to the outbound stream and takes nothing off it; what it adds is a
prefix of the one frame it encodes. -/
def Obligations.OutboundStreamOnlyGrowsByFrames : Prop :=
  ∀ s t : State, step s = .next t →
    t.outbound = s.outbound ∨
    ∃ F out, t.outbound = s.outbound ++ [out] ∧ out <+: F ∧
      ((∃ addr cm pm, F = encBasicFrame s.cfg addr cm pm) ∨
        ∃ addr A, A.length ≤ 65532 ∧ F = encApduFrame s.cfg addr A)

/-- R244, R218: a received frame stays, byte for byte, until the next `DEC` is issued or a reset happens. -/
def Obligations.ReceivedFrameStaysUntilDecOrReset : Prop :=
  ∀ (s t : State), s.dph = .done → step s = .next t →
    (t.dph = .done ∧ t.rxLen = s.rxLen ∧ ∀ a, t.rxbuf.read a = s.rxbuf.read a) ∨
    s.resetLine.head? = some true ∨ ∃ rest, decode s.ops = .op .dec rest

/-- R92: the two exchanges issue `DEC` exactly when the encode returned `Ok`. -/
def Obligations.ExchangeIssuesDecOnlyAfterOk : Prop :=
  ∀ (enc : Instr) (s t : State), sends enc = true → exec enc s = .next t →
    (lastOk t = true → exchange enc s = exec .dec t ∧ ∃ u, exchange enc s = .next u ∧ u.dph = .hdr) ∧
    (lastOk t = false → exchange enc s = .next t ∧ t.dph = s.dph)

/-! ## Invariants (spec/10_state.md R37) -/

/-- The reset state satisfies the invariants of R37. -/
def Obligations.ResetStateSatisfiesTheInvariants : Prop := BlockInv State.reset

/-- R37: every step of every agent, a reset event included, keeps the invariants. -/
def Obligations.StepKeepsTheInvariants : Prop := ∀ s t : State, BlockInv s → step s = .next t → BlockInv t

/-- R24, R37, R150: where the invariants hold no step stops with a fault, and it goes on unless the host presents an
operation with bytes missing. The refusal of such an operation is the model's choice (assumption 7), and so are the two
faults that guard the receive buffer (assumption 8). -/
def Obligations.StepGoesOnWhereTheInvariantsHold : Prop :=
  ∀ s : State, BlockInv s → wholeOperation s → goesOn (step s) = true

/-- R24: every step keeps the canonical form of the receive buffer, from any state whose buffer has it. -/
def Obligations.StepKeepsTheBufferCanonical : Prop :=
  ∀ s t : State, s.rxbuf.wf → step s = .next t → t.rxbuf.wf

/-- R25, R29, R37: what the invariants say of the counts: `DCNT` is 0 in every quiet phase, so `REG.RD 4` returns 0 there, and
`RXLEN` is 0 in `IDLE` and `FAIL` and at least 9 in `DONE`. -/
def Obligations.CountsInQuietPhases : Prop :=
  ∀ s : State, BlockInv s → s.dph.busy = false →
    s.dcnt = 0 ∧ exec (.regRd 4) s = .next { s with results := s.results ++ [.ok (.word 0)] } ∧
    (s.dph = .done → 9 ≤ s.rxLen.toNat ∧ HoldsFrame s s.received ∧ validFrame s.cfg s.received = true) ∧
    (s.dph ≠ .done → s.rxLen = 0)
end

