-- ==== Sys2Proof/Laws/Operands.lean ====
section
/-! SUPPORT. Byte order: putting bytes together and taking them apart are inverse to each other. -/

namespace Sys2Proof.Machine

/-! ## Two bytes (R9) -/

theorem be16_toNat (h l : Byte) : (be16 h l).toNat = h.toNat * 256 + l.toNat := by
  have := h.isLt
  have := l.isLt
  simp only [be16, BitVec.toNat_ofNat]
  omega

theorem hi8_toNat (v : Word16) : (hi8 v).toNat = v.toNat / 256 := by
  have := v.isLt
  simp only [hi8, BitVec.extractLsb'_toNat, Nat.shiftRight_eq_div_pow]
  omega

theorem lo8_toNat (v : Word16) : (lo8 v).toNat = v.toNat % 256 := by
  simp [lo8, BitVec.extractLsb'_toNat]

@[simp] theorem be16_hi8_lo8 (v : Word16) : be16 (hi8 v) (lo8 v) = v := by
  apply BitVec.eq_of_toNat_eq
  rw [be16_toNat, hi8_toNat, lo8_toNat]
  omega

@[simp] theorem hi8_be16 (h l : Byte) : hi8 (be16 h l) = h := by
  have := l.isLt
  apply BitVec.eq_of_toNat_eq
  rw [hi8_toNat, be16_toNat]
  omega

@[simp] theorem lo8_be16 (h l : Byte) : lo8 (be16 h l) = l := by
  have := l.isLt
  apply BitVec.eq_of_toNat_eq
  rw [lo8_toNat, be16_toNat]
  omega

/-! ## Three bytes (R82) -/

theorem index24_toNat (i1 i2 i3 : Byte) :
    (index24 i1 i2 i3).toNat = i1.toNat * 65536 + i2.toNat * 256 + i3.toNat := by
  have := i1.isLt
  have := i2.isLt
  have := i3.isLt
  simp only [index24, BitVec.toNat_ofNat]
  omega

theorem index24_bytes (i : Index24) : index24 (i.extractLsb' 16 8) (i.extractLsb' 8 8) (i.extractLsb' 0 8) = i := by
  have := i.isLt
  apply BitVec.eq_of_toNat_eq
  rw [index24_toNat]
  simp only [BitVec.extractLsb'_toNat, Nat.shiftRight_eq_div_pow]
  omega

theorem index24Bytes_index24 (i1 i2 i3 : Byte) : index24Bytes (index24 i1 i2 i3) = [i1, i2, i3] := by
  have := i1.isLt
  have := i2.isLt
  have := i3.isLt
  have h := index24_toNat i1 i2 i3
  simp only [index24Bytes, List.cons.injEq, and_true]
  refine ⟨?_, ?_, ?_⟩ <;> apply BitVec.eq_of_toNat_eq <;>
    simp only [BitVec.extractLsb'_toNat, h, Nat.shiftRight_eq_div_pow] <;> omega

/-! ## Four bytes (R33) -/

theorem word4_toNat (b0 b1 b2 b3 : Byte) :
    (word4 b0 b1 b2 b3).toNat = b0.toNat + b1.toNat * 256 + b2.toNat * 65536 + b3.toNat * 16777216 := by
  have := b0.isLt
  have := b1.isLt
  have := b2.isLt
  have := b3.isLt
  simp only [word4, BitVec.toNat_ofNat]
  omega

theorem word4_byte0 (b0 b1 b2 b3 : Byte) : (word4 b0 b1 b2 b3).extractLsb' 0 8 = b0 := by
  have := b0.isLt
  apply BitVec.eq_of_toNat_eq
  rw [BitVec.extractLsb'_toNat, word4_toNat, Nat.shiftRight_eq_div_pow]
  omega

theorem word4_byte1 (b0 b1 b2 b3 : Byte) : (word4 b0 b1 b2 b3).extractLsb' 8 8 = b1 := by
  have := b0.isLt
  have := b1.isLt
  apply BitVec.eq_of_toNat_eq
  rw [BitVec.extractLsb'_toNat, word4_toNat, Nat.shiftRight_eq_div_pow]
  omega

theorem word4_byte2 (b0 b1 b2 b3 : Byte) : (word4 b0 b1 b2 b3).extractLsb' 16 8 = b2 := by
  have := b0.isLt
  have := b1.isLt
  have := b2.isLt
  apply BitVec.eq_of_toNat_eq
  rw [BitVec.extractLsb'_toNat, word4_toNat, Nat.shiftRight_eq_div_pow]
  omega

theorem word4_byte3 (b0 b1 b2 b3 : Byte) : (word4 b0 b1 b2 b3).extractLsb' 24 8 = b3 := by
  have := b0.isLt
  have := b1.isLt
  have := b2.isLt
  have := b3.isLt
  apply BitVec.eq_of_toNat_eq
  rw [BitVec.extractLsb'_toNat, word4_toNat, Nat.shiftRight_eq_div_pow]
  omega

/-- Bits of the top byte, by its own numbering. -/
theorem word4_top (b0 b1 b2 b3 : Byte) (k w : Nat) (h : k + w ≤ 8) :
    (word4 b0 b1 b2 b3).extractLsb' (24 + k) w = b3.extractLsb' k w := by
  have e : b3.extractLsb' k w = ((word4 b0 b1 b2 b3).extractLsb' 24 8).extractLsb' k w := by rw [word4_byte3]
  rw [e]
  apply BitVec.eq_of_getLsbD_eq
  intro i hi
  have hk : k + i < 8 := by omega
  simp [hi, hk, Nat.add_assoc]

end Sys2Proof.Machine
end

