-- ==== Sys2Proof/Laws/State.lean ====
section
/-! SUPPORT. One lemma for each field of State under each update the operations make: true by definition, for simp. -/

namespace Sys2Proof.Machine

/-! ## A result is delivered -/

@[simp] theorem deliver_cfg (r : Response) (s : State) : (deliver r s).cfg = s.cfg := rfl
@[simp] theorem deliver_bcc (r : Response) (s : State) : (deliver r s).bcc = s.bcc := rfl
@[simp] theorem deliver_crc (r : Response) (s : State) : (deliver r s).crc = s.crc := rfl
@[simp] theorem deliver_rxbuf (r : Response) (s : State) : (deliver r s).rxbuf = s.rxbuf := rfl
@[simp] theorem deliver_rxLen (r : Response) (s : State) : (deliver r s).rxLen = s.rxLen := rfl
@[simp] theorem deliver_dph (r : Response) (s : State) : (deliver r s).dph = s.dph := rfl
@[simp] theorem deliver_dcnt (r : Response) (s : State) : (deliver r s).dcnt = s.dcnt := rfl
@[simp] theorem deliver_dack (r : Response) (s : State) : (deliver r s).dack = s.dack := rfl
@[simp] theorem deliver_derr (r : Response) (s : State) : (deliver r s).derr = s.derr := rfl
@[simp] theorem deliver_ops (r : Response) (s : State) : (deliver r s).ops = s.ops := rfl
@[simp] theorem deliver_results (r : Response) (s : State) : (deliver r s).results = s.results ++ [r] := rfl
@[simp] theorem deliver_inbound (r : Response) (s : State) : (deliver r s).inbound = s.inbound := rfl
@[simp] theorem deliver_rxPos (r : Response) (s : State) : (deliver r s).rxPos = s.rxPos := rfl
@[simp] theorem deliver_outbound (r : Response) (s : State) : (deliver r s).outbound = s.outbound := rfl
@[simp] theorem deliver_txAnswers (r : Response) (s : State) : (deliver r s).txAnswers = s.txAnswers := rfl
@[simp] theorem deliver_resetLine (r : Response) (s : State) : (deliver r s).resetLine = s.resetLine := rfl

/-! ## A reset event -/

@[simp] theorem resetEvent_cfg (s : State) : (resetEvent s).cfg = s.cfg := rfl
@[simp] theorem resetEvent_bcc (s : State) : (resetEvent s).bcc = 0x00 := rfl
@[simp] theorem resetEvent_crc (s : State) : (resetEvent s).crc = 0xFFFFFFFF := rfl
@[simp] theorem resetEvent_rxbuf (s : State) : (resetEvent s).rxbuf = [] := rfl
@[simp] theorem resetEvent_rxLen (s : State) : (resetEvent s).rxLen = 0 := rfl
@[simp] theorem resetEvent_dph (s : State) : (resetEvent s).dph = .idle := rfl
@[simp] theorem resetEvent_dcnt (s : State) : (resetEvent s).dcnt = 0 := rfl
@[simp] theorem resetEvent_dack (s : State) : (resetEvent s).dack = false := rfl
@[simp] theorem resetEvent_derr (s : State) : (resetEvent s).derr = 0x00 := rfl
@[simp] theorem resetEvent_ops (s : State) : (resetEvent s).ops = s.ops := rfl
@[simp] theorem resetEvent_results (s : State) : (resetEvent s).results = s.results ++ abortedBy s := rfl
@[simp] theorem resetEvent_inbound (s : State) : (resetEvent s).inbound = s.inbound := rfl
@[simp] theorem resetEvent_rxPos (s : State) : (resetEvent s).rxPos = s.rxPos := rfl
@[simp] theorem resetEvent_outbound (s : State) : (resetEvent s).outbound = s.outbound := rfl
@[simp] theorem resetEvent_txAnswers (s : State) : (resetEvent s).txAnswers = s.txAnswers := rfl
@[simp] theorem resetEvent_resetLine (s : State) : (resetEvent s).resetLine = s.resetLine := rfl

/-! ## A sample of the reset line is taken -/

@[simp] theorem tick_cfg (s : State) : (tick s).cfg = s.cfg := rfl
@[simp] theorem tick_bcc (s : State) : (tick s).bcc = s.bcc := rfl
@[simp] theorem tick_crc (s : State) : (tick s).crc = s.crc := rfl
@[simp] theorem tick_rxbuf (s : State) : (tick s).rxbuf = s.rxbuf := rfl
@[simp] theorem tick_rxLen (s : State) : (tick s).rxLen = s.rxLen := rfl
@[simp] theorem tick_dph (s : State) : (tick s).dph = s.dph := rfl
@[simp] theorem tick_dcnt (s : State) : (tick s).dcnt = s.dcnt := rfl
@[simp] theorem tick_dack (s : State) : (tick s).dack = s.dack := rfl
@[simp] theorem tick_derr (s : State) : (tick s).derr = s.derr := rfl
@[simp] theorem tick_ops (s : State) : (tick s).ops = s.ops := rfl
@[simp] theorem tick_results (s : State) : (tick s).results = s.results := rfl
@[simp] theorem tick_inbound (s : State) : (tick s).inbound = s.inbound := rfl
@[simp] theorem tick_rxPos (s : State) : (tick s).rxPos = s.rxPos := rfl
@[simp] theorem tick_outbound (s : State) : (tick s).outbound = s.outbound := rfl
@[simp] theorem tick_txAnswers (s : State) : (tick s).txAnswers = s.txAnswers := rfl
@[simp] theorem tick_resetLine (s : State) : (tick s).resetLine = s.resetLine.tail := rfl

/-! ## An operation is placed -/

@[simp] theorem withFetchWord_cfg (s : State) (nbits w : Nat) : (s.withFetchWord nbits w).cfg = s.cfg := rfl
@[simp] theorem withFetchWord_bcc (s : State) (nbits w : Nat) : (s.withFetchWord nbits w).bcc = s.bcc := rfl
@[simp] theorem withFetchWord_crc (s : State) (nbits w : Nat) : (s.withFetchWord nbits w).crc = s.crc := rfl
@[simp] theorem withFetchWord_rxbuf (s : State) (nbits w : Nat) : (s.withFetchWord nbits w).rxbuf = s.rxbuf := rfl
@[simp] theorem withFetchWord_rxLen (s : State) (nbits w : Nat) : (s.withFetchWord nbits w).rxLen = s.rxLen := rfl
@[simp] theorem withFetchWord_dph (s : State) (nbits w : Nat) : (s.withFetchWord nbits w).dph = s.dph := rfl
@[simp] theorem withFetchWord_dcnt (s : State) (nbits w : Nat) : (s.withFetchWord nbits w).dcnt = s.dcnt := rfl
@[simp] theorem withFetchWord_dack (s : State) (nbits w : Nat) : (s.withFetchWord nbits w).dack = s.dack := rfl
@[simp] theorem withFetchWord_derr (s : State) (nbits w : Nat) : (s.withFetchWord nbits w).derr = s.derr := rfl
@[simp] theorem withFetchWord_ops (s : State) (nbits w : Nat) : (s.withFetchWord nbits w).ops = tableBytes nbits w ++ s.ops := rfl
@[simp] theorem withFetchWord_results (s : State) (nbits w : Nat) : (s.withFetchWord nbits w).results = s.results := rfl
@[simp] theorem withFetchWord_inbound (s : State) (nbits w : Nat) : (s.withFetchWord nbits w).inbound = s.inbound := rfl
@[simp] theorem withFetchWord_rxPos (s : State) (nbits w : Nat) : (s.withFetchWord nbits w).rxPos = s.rxPos := rfl
@[simp] theorem withFetchWord_outbound (s : State) (nbits w : Nat) : (s.withFetchWord nbits w).outbound = s.outbound := rfl
@[simp] theorem withFetchWord_txAnswers (s : State) (nbits w : Nat) : (s.withFetchWord nbits w).txAnswers = s.txAnswers := rfl
@[simp] theorem withFetchWord_resetLine (s : State) (nbits w : Nat) : (s.withFetchWord nbits w).resetLine = false :: s.resetLine := rfl

end Sys2Proof.Machine
end

