-- ==== Sys2Proof/Laws/Memory.lean ====
section
/-! SUPPORT. What the operations over the receive buffer do: reading after writing, the canonical form, and the memory that
holds a byte sequence at the indices from 0 up. -/

namespace Sys2Proof.Machine

/-! ## Reading after writing -/

theorem Memory.read_write_same (m : Memory) (i : Nat) (v : Byte) : (m.write i v).read i = some v := by
  induction m with
  | nil => simp [Memory.write, Memory.read]
  | cons c rest ih =>
    obtain ⟨a, w⟩ := c
    simp only [Memory.write]
    split
    · simp [Memory.read]
    · split
      · simp [Memory.read]
      · simp [Memory.read, *]

theorem Memory.read_write_other (m : Memory) {i j : Nat} (v : Byte) (h : i ≠ j) : (m.write i v).read j = m.read j := by
  induction m with
  | nil => simp [Memory.write, Memory.read, h]
  | cons c rest ih =>
    obtain ⟨a, w⟩ := c
    simp only [Memory.write]
    split
    · simp [Memory.read, h]
    · split
      · rename_i e
        have : a ≠ j := fun h' => h (e.symm.trans h')
        simp [Memory.read, h, this]
      · simp [Memory.read, ih]

theorem Memory.read_truncate (m : Memory) (n i : Nat) :
    (m.truncate n).read i = if i < n then m.read i else none := by
  induction m with
  | nil => simp [Memory.truncate, Memory.read]
  | cons c rest ih =>
    obtain ⟨a, w⟩ := c
    simp only [Memory.truncate, List.filter_cons] at ih ⊢
    by_cases hc : a < n
    · by_cases hi : a = i
      · subst hi; simp [Memory.read, hc]
      · simp only [hc, decide_true, if_true, Memory.read, hi, if_false, ih]
    · by_cases hi : a = i
      · subst hi; simpa [Memory.read, hc] using ih
      · simpa [Memory.read, hc, hi] using ih

/-! ## The canonical form is kept -/

theorem Memory.nil_wf : Memory.wf [] := List.Pairwise.nil

theorem Memory.mem_write {m : Memory} {i : Nat} {v : Byte} {c : Host.Cell} (h : c ∈ m.write i v) :
    c.1 = i ∨ c ∈ m := by
  induction m with
  | nil => simp only [Memory.write, List.mem_singleton] at h; exact .inl (by rw [h])
  | cons d rest ih =>
    obtain ⟨a, w⟩ := d
    simp only [Memory.write] at h
    split at h
    · rcases List.mem_cons.mp h with rfl | h
      · exact .inl rfl
      · exact .inr h
    · split at h
      · rcases List.mem_cons.mp h with rfl | h
        · exact .inl rfl
        · exact .inr (List.mem_cons_of_mem _ h)
      · rcases List.mem_cons.mp h with rfl | h
        · exact .inr List.mem_cons_self
        · rcases ih h with h | h
          · exact .inl h
          · exact .inr (List.mem_cons_of_mem _ h)

theorem Memory.write_wf {m : Memory} (h : m.wf) (i : Nat) (v : Byte) : (m.write i v).wf := by
  induction m with
  | nil => exact List.pairwise_singleton _ _
  | cons d rest ih =>
    obtain ⟨a, w⟩ := d
    have hr : ∀ c ∈ rest, a < c.1 := by
      intro c hc
      have := (List.pairwise_cons.mp h).1
      exact this c.1 (List.mem_map_of_mem hc)
    have ht : Memory.wf rest := (List.pairwise_cons.mp h).2
    simp only [Memory.write]
    split
    · rename_i hia
      refine List.pairwise_cons.mpr ⟨?_, h⟩
      intro b hb
      rcases List.mem_cons.mp hb with rfl | hb
      · exact hia
      · obtain ⟨c, hc, rfl⟩ := List.mem_map.mp hb
        exact Nat.lt_trans hia (hr c hc)
    · split
      · rename_i e
        subst e
        refine List.pairwise_cons.mpr ⟨?_, ht⟩
        intro b hb
        obtain ⟨c, hc, rfl⟩ := List.mem_map.mp hb
        exact hr c hc
      · refine List.pairwise_cons.mpr ⟨?_, ih ht⟩
        intro b hb
        obtain ⟨c, hc, rfl⟩ := List.mem_map.mp hb
        rcases Memory.mem_write hc with e | hc
        · show a < c.1; omega
        · exact hr c hc

theorem Memory.truncate_wf {m : Memory} (h : m.wf) (n : Nat) : (m.truncate n).wf :=
  List.Pairwise.sublist (List.filter_sublist.map Prod.fst) h

/-! ## The memory of a byte sequence -/

@[simp] theorem Memory.snd_ofBytesAt (a : Nat) (bs : List Byte) : (Memory.ofBytesAt a bs).map Prod.snd = bs := by
  induction bs generalizing a with
  | nil => rfl
  | cons b bs ih => simp [Memory.ofBytesAt, ih]

@[simp] theorem Memory.snd_ofBytes (bs : List Byte) : (Memory.ofBytes bs).map Prod.snd = bs := Memory.snd_ofBytesAt 0 bs

theorem Memory.read_ofBytesAt (a : Nat) (bs : List Byte) (i : Nat) :
    (Memory.ofBytesAt a bs).read (a + i) = bs[i]? := by
  induction bs generalizing a i with
  | nil => simp [Memory.ofBytesAt, Memory.read]
  | cons b bs ih =>
    cases i with
    | zero => simp [Memory.ofBytesAt, Memory.read]
    | succ i =>
      have h : a + (i + 1) = a + 1 + i := by omega
      have h' : ¬ a = a + (i + 1) := by omega
      simp only [Memory.ofBytesAt, Memory.read, h', if_false, List.getElem?_cons_succ]
      rw [h]; exact ih (a + 1) i

/-- Reading the memory of a byte sequence gives the byte at that index, and nothing past its end. -/
@[simp] theorem Memory.read_ofBytes (bs : List Byte) (i : Nat) : (Memory.ofBytes bs).read i = bs[i]? := by
  have h := Memory.read_ofBytesAt 0 bs i
  rwa [Nat.zero_add] at h

theorem Memory.write_ofBytesAt (a : Nat) (bs : List Byte) (v : Byte) :
    (Memory.ofBytesAt a bs).write (a + bs.length) v = Memory.ofBytesAt a (bs ++ [v]) := by
  induction bs generalizing a with
  | nil => simp [Memory.ofBytesAt, Memory.write]
  | cons b bs ih =>
    have h1 : ¬ a + (bs.length + 1) < a := by omega
    have h2 : ¬ a = a + (bs.length + 1) := by omega
    have h3 : a + (bs.length + 1) = a + 1 + bs.length := by omega
    simp only [Memory.ofBytesAt, List.length_cons, Memory.write, h1, h2, if_false, List.cons_append]
    rw [h3, ih (a + 1)]

/-- Storing at the first index past the end appends the byte. -/
theorem Memory.write_ofBytes (bs : List Byte) (v : Byte) :
    (Memory.ofBytes bs).write bs.length v = Memory.ofBytes (bs ++ [v]) := by
  simpa [Memory.ofBytes] using Memory.write_ofBytesAt 0 bs v

theorem Memory.bytesFrom_ofBytesAt (a : Nat) (bs : List Byte) (n : Nat) (h : n ≤ bs.length) :
    Memory.bytesFrom a n (Memory.ofBytesAt a bs) = some (bs.take n) := by
  induction bs generalizing a n with
  | nil =>
    have : n = 0 := by simpa using h
    subst this; rfl
  | cons b bs ih =>
    cases n with
    | zero => rfl
    | succ n =>
      have := ih (a + 1) n (by simpa using h)
      simp [Memory.ofBytesAt, Memory.bytesFrom, this]

/-- The first bytes of the memory of a byte sequence. -/
theorem Memory.first_ofBytes (bs : List Byte) (n : Nat) (h : n ≤ bs.length) :
    (Memory.ofBytes bs).first n = some (bs.take n) := Memory.bytesFrom_ofBytesAt 0 bs n h

theorem Memory.mem_ofBytesAt {a : Nat} {bs : List Byte} {c : Host.Cell} (h : c ∈ Memory.ofBytesAt a bs) : a ≤ c.1 := by
  induction bs generalizing a with
  | nil => simp [Memory.ofBytesAt] at h
  | cons b bs ih =>
    rcases List.mem_cons.mp h with rfl | h
    · exact Nat.le_refl _
    · exact Nat.le_of_succ_le (ih h)

theorem Memory.ofBytesAt_wf (a : Nat) (bs : List Byte) : (Memory.ofBytesAt a bs).wf := by
  induction bs generalizing a with
  | nil => exact Memory.nil_wf
  | cons b bs ih =>
    refine List.pairwise_cons.mpr ⟨?_, ih (a + 1)⟩
    intro x hx
    obtain ⟨c, hc, rfl⟩ := List.mem_map.mp hx
    exact Memory.mem_ofBytesAt hc

/-- The memory of a byte sequence is canonical. -/
theorem Memory.ofBytes_wf (bs : List Byte) : (Memory.ofBytes bs).wf := Memory.ofBytesAt_wf 0 bs

end Sys2Proof.Machine
end

