-- ==== Sys2Proof/Laws/Ops.lean ====
section
/-! SUPPORT. What each shared operation can do, said once, so that no later proof unfolds one. -/

namespace Sys2Proof.Machine

/-! ## Reading a byte -/

/-- Where the index holds a value, reading goes on with it. -/
theorem withByte_of_read {s : State} {i : Nat} {b : Byte} (h : s.rxbuf.read i = some b) (k : Byte → Result) :
    withByte s i k = k b := by simp [withByte, h]

/-- A read that answers a next state read a byte. -/
theorem withByte_next {s t : State} {i : Nat} {k : Byte → Result} (h : withByte s i k = .next t) :
    ∃ b, s.rxbuf.read i = some b ∧ k b = .next t := by
  unfold withByte at h
  split at h
  · exact ⟨_, by assumption, h⟩
  · cases h

/-- In a buffer that holds `F`, reading an index below `len(F)` goes on with `F[i]`. -/
theorem withByte_ofBytes {s : State} {F : List Byte} (hb : s.rxbuf = Memory.ofBytes F) {i : Nat} (hi : i < F.length)
    (k : Byte → Result) : withByte s i k = k (byteAt F i) := by
  refine withByte_of_read ?_ k
  simp [hb, byteAt, hi]

theorem withBe16_ofBytes {s : State} {F : List Byte} (hb : s.rxbuf = Memory.ofBytes F) {i j : Nat} (hi : i < F.length)
    (hj : j < F.length) (k : Word16 → Result) : withBe16 s i j k = k (be16 (byteAt F i) (byteAt F j)) := by
  rw [withBe16, withByte_ofBytes hb hi, withByte_ofBytes hb hj]

/-! ## Needing a frame, and looking up -/

theorem withFrame_done {s : State} (h : s.dph = .done) (k : Result) : withFrame s k = k := by simp [withFrame, h]

theorem withFrame_noFrame {s : State} (h : s.dph ≠ .done) (k : Result) :
    withFrame s k = .next (deliver (.fault .noFrame) s) := by simp [withFrame, h, raise]

theorem withEntry_found {w : Nat} {s : State} {t : Table w} {code : BitVec w} {i : Nat} (h : t.find code = some i)
    (miss : OpFault) (k : Nat → Result) : withEntry s t code miss k = k i := by simp [withEntry, h]

theorem withEntry_missed {w : Nat} {s : State} {t : Table w} {code : BitVec w} (h : t.find code = none)
    (miss : OpFault) (k : Nat → Result) : withEntry s t code miss k = .next (deliver (.fault miss) s) := by
  simp [withEntry, h, raise]

/-! ## Operations that only return a result -/

/-- The answer leaves the state alone but for one result, or stops on a read of an index that holds no value. -/
def OnlyDelivers (s : State) (r : Result) : Prop :=
  (∃ resp, r = .next (deliver resp s)) ∨ ∃ i, r = .fault (.rxbufNoValue i)

theorem answer_onlyDelivers (v : Value) (s : State) : OnlyDelivers s (answer v s) := .inl ⟨_, rfl⟩

theorem raise_onlyDelivers (f : OpFault) (s : State) : OnlyDelivers s (raise f s) := .inl ⟨_, rfl⟩

theorem withByte_onlyDelivers {s : State} {i : Nat} {k : Byte → Result} (h : ∀ b, OnlyDelivers s (k b)) :
    OnlyDelivers s (withByte s i k) := by
  unfold withByte
  split
  · exact h _
  · exact .inr ⟨_, rfl⟩

theorem withBe16_onlyDelivers {s : State} {i j : Nat} {k : Word16 → Result} (h : ∀ v, OnlyDelivers s (k v)) :
    OnlyDelivers s (withBe16 s i j k) :=
  withByte_onlyDelivers fun _ => withByte_onlyDelivers fun _ => h _

theorem withFrame_onlyDelivers {s : State} {k : Result} (h : OnlyDelivers s k) : OnlyDelivers s (withFrame s k) := by
  unfold withFrame
  split
  · exact h
  · exact raise_onlyDelivers _ _

theorem withEntry_onlyDelivers {w : Nat} {s : State} {t : Table w} {code : BitVec w} {miss : OpFault} {k : Nat → Result}
    (h : ∀ i, OnlyDelivers s (k i)) : OnlyDelivers s (withEntry s t code miss k) := by
  unfold withEntry
  split
  · exact h _
  · exact raise_onlyDelivers _ _

theorem ite_onlyDelivers {s : State} {c : Prop} [Decidable c] {x y : Result} (hx : OnlyDelivers s x)
    (hy : OnlyDelivers s y) : OnlyDelivers s (if c then x else y) := by
  split
  · exact hx
  · exact hy

theorem withStatusWord_onlyDelivers {s : State} {k : Word16 → Result} (h : ∀ v, OnlyDelivers s (k v)) :
    OnlyDelivers s (withStatusWord s k) :=
  ite_onlyDelivers (raise_onlyDelivers _ _) (withBe16_onlyDelivers h)

/-- An operation that only returns a result, if it answers a next state, changes nothing else. -/
theorem OnlyDelivers.next {s t : State} {r : Result} (h : OnlyDelivers s r) (hr : r = .next t) :
    ∃ resp, t = deliver resp s := by
  rcases h with ⟨resp, h⟩ | ⟨i, h⟩
  · rw [h] at hr; cases hr; exact ⟨resp, rfl⟩
  · rw [h] at hr; cases hr

/-! ## Ending a decode, sending a frame -/

/-- R153: what a failed decode leaves. -/
theorem decodeFail_eq (f : OpFault) (s : State) :
    decodeFail f s = .next { s with
      dph := .fail, derr := f.code, rxLen := 0, dcnt := 0, rxbuf := [], results := s.results ++ [.fault f] } := rfl

/-- R152, R156: what a successful decode leaves. -/
theorem decodeDone_eq (s : State) :
    decodeDone s = .next { s with dph := .done, results := s.results ++ [.ok (.count s.rxLen)] } := rfl

theorem OpFault.code_ne_zero (f : OpFault) : f.code ≠ 0x00 := by
  cases f <;> simp [OpFault.code]

/-- R51, R127: the channel's answer, and everything a write of a frame changes. -/
theorem sendFrame_eq (frame : List Byte) (s : State) :
    sendFrame frame s = .next { s with
      outbound := s.outbound ++ [onTheWire frame (txAnswer s)], txAnswers := s.txAnswers.tail,
      results := s.results ++ [txResponse (txAnswer s)] } := rfl

theorem txAnswer_listed {s : State} {a : TxAnswer} {rest : List TxAnswer} (h : s.txAnswers = a :: rest) :
    txAnswer s = a := by simp [txAnswer, h]

/-- What is on the wire is a prefix of the frame (R127). -/
theorem onTheWire_prefix (frame : List Byte) (a : TxAnswer) : onTheWire frame a <+: frame := by
  cases a with
  | ok => exact List.prefix_refl _
  | ioError k => exact List.take_prefix _ _

/-- Storing a byte (R144, R150) goes on in the state with the byte stored, or stops past the buffer's end. -/
theorem storeByte_next {b : Byte} {s t : State} {k : State → Result} (h : storeByte b s k = .next t) :
    s.rxLen.toNat < s.cfg.rxCap ∧
      k { s with rxbuf := s.rxbuf.write s.rxLen.toNat b, rxLen := s.rxLen + 1, dcnt := s.dcnt - 1 } = .next t := by
  unfold storeByte at h
  split at h
  · exact ⟨by assumption, h⟩
  · cases h

theorem storeByte_fits {b : Byte} {s : State} (h : s.rxLen.toNat < s.cfg.rxCap) (k : State → Result) :
    storeByte b s k =
      k { s with rxbuf := s.rxbuf.write s.rxLen.toNat b, rxLen := s.rxLen + 1, dcnt := s.dcnt - 1 } := by
  simp [storeByte, h]

end Sys2Proof.Machine
end

