-- ==== Sys2Proof/Laws/Exec.lean ====
section
/-! SUPPORT. What each operation of the opcode table can do, said once: the operations that only return a result, and what
the others change. -/

namespace Sys2Proof.Machine

/-! ## Operations that only return a result -/

theorem execBccRd_onlyDelivers (s : State) : OnlyDelivers s (exec .bccRd s) := answer_onlyDelivers _ _
theorem execCrcRd_onlyDelivers (s : State) : OnlyDelivers s (exec .crcRd s) := answer_onlyDelivers _ _
theorem execCrcBrev_onlyDelivers (s : State) : OnlyDelivers s (exec .crcBrev s) := answer_onlyDelivers _ _
theorem execRxLen_onlyDelivers (s : State) : OnlyDelivers s (exec .rxLen s) := answer_onlyDelivers _ _

theorem execRxRd_onlyDelivers (i : Index24) (s : State) : OnlyDelivers s (exec (.rxRd i) s) :=
  withFrame_onlyDelivers <| ite_onlyDelivers (raise_onlyDelivers _ _) <|
    withByte_onlyDelivers fun _ => answer_onlyDelivers _ _

theorem execClsTsucc_onlyDelivers (s : State) : OnlyDelivers s (exec .clsTsucc s) :=
  withFrame_onlyDelivers <| withByte_onlyDelivers fun _ => answer_onlyDelivers _ _

theorem execClsAsucc_onlyDelivers (s : State) : OnlyDelivers s (exec .clsAsucc s) :=
  withFrame_onlyDelivers <| withByte_onlyDelivers fun _ =>
    ite_onlyDelivers (answer_onlyDelivers _ _) <| withStatusWord_onlyDelivers fun _ => answer_onlyDelivers _ _

theorem execClsAdesc_onlyDelivers (s : State) : OnlyDelivers s (exec .clsAdesc s) :=
  withFrame_onlyDelivers <| withStatusWord_onlyDelivers fun _ =>
    withEntry_onlyDelivers fun _ => answer_onlyDelivers _ _

theorem execClsStat_onlyDelivers (s : State) : OnlyDelivers s (exec .clsStat s) :=
  withFrame_onlyDelivers <| ite_onlyDelivers (raise_onlyDelivers _ _) <|
    withByte_onlyDelivers fun _ => withEntry_onlyDelivers fun _ =>
    withByte_onlyDelivers fun _ => withEntry_onlyDelivers fun _ =>
    withByte_onlyDelivers fun _ => withEntry_onlyDelivers fun _ => answer_onlyDelivers _ _

theorem execClsErr_onlyDelivers (s : State) : OnlyDelivers s (exec .clsErr s) :=
  withFrame_onlyDelivers <| ite_onlyDelivers (raise_onlyDelivers _ _) <|
    withBe16_onlyDelivers fun _ => withEntry_onlyDelivers fun _ => answer_onlyDelivers _ _

theorem execClsFields_onlyDelivers (s : State) : OnlyDelivers s (exec .clsFields s) :=
  withFrame_onlyDelivers <|
    withByte_onlyDelivers fun _ => withBe16_onlyDelivers fun _ => withByte_onlyDelivers fun _ =>
    withByte_onlyDelivers fun _ => withByte_onlyDelivers fun _ => withByte_onlyDelivers fun _ =>
    withByte_onlyDelivers fun _ => answer_onlyDelivers _ _

theorem execRegRd_onlyDelivers (n : Byte) (s : State) : OnlyDelivers s (exec (.regRd n) s) := by
  show OnlyDelivers s (execRegRd n s)
  unfold execRegRd
  split
  · exact answer_onlyDelivers _ _
  · exact raise_onlyDelivers _ _

/-- An operation that writes neither checksum register, sends nothing and is not `DEC` only returns a result. -/
theorem exec_onlyDelivers {i : Instr} (hb : writesBcc i = false) (hc : writesCrc i = false) (hs : sends i = false)
    (hd : i ≠ .dec) (s : State) : OnlyDelivers s (exec i s) := by
  cases i with
  | bccClr | bccUpd => cases hb
  | crcInit | crcUpd => cases hc
  | encBasic | encApdu => cases hs
  | dec => exact absurd rfl hd
  | bccRd => exact execBccRd_onlyDelivers s
  | crcRd => exact execCrcRd_onlyDelivers s
  | crcBrev => exact execCrcBrev_onlyDelivers s
  | rxLen => exact execRxLen_onlyDelivers s
  | rxRd i => exact execRxRd_onlyDelivers i s
  | clsTsucc => exact execClsTsucc_onlyDelivers s
  | clsAsucc => exact execClsAsucc_onlyDelivers s
  | clsAdesc => exact execClsAdesc_onlyDelivers s
  | clsStat => exact execClsStat_onlyDelivers s
  | clsErr => exact execClsErr_onlyDelivers s
  | clsFields => exact execClsFields_onlyDelivers s
  | regRd n => exact execRegRd_onlyDelivers n s

/-! ## Operations that change more -/

theorem execBccClr_eq (s : State) :
    exec .bccClr s = .next { s with bcc := 0x00, results := s.results ++ [.ok .nothing] } := rfl

theorem execBccUpd_eq (b : Byte) (s : State) :
    exec (.bccUpd b) s = .next { s with bcc := s.bcc ^^^ b, results := s.results ++ [.ok .nothing] } := rfl

theorem execCrcInit_eq (s : State) :
    exec .crcInit s = .next { s with crc := Config.CRC_INIT, results := s.results ++ [.ok .nothing] } := rfl

theorem execCrcUpd_eq (b : Byte) (s : State) :
    exec (.crcUpd b) s = .next { s with crc := crcByte s.crc b, results := s.results ++ [.ok .nothing] } := rfl

theorem execEncBasic_eq (a c p : Byte) (s : State) :
    exec (.encBasic a c p) s = sendFrame (encBasicFrame s.cfg a c p) s := rfl

theorem execEncApdu_fits {apdu : List Byte} (h : apdu.length ≤ Config.APDU_MAX) (a : Byte) (s : State) :
    exec (.encApdu a apdu) s = sendFrame (encApduFrame s.cfg a apdu) s := by
  have : ¬ apdu.length > Config.APDU_MAX := by omega
  simp only [exec, execEncApdu, this, if_false]

theorem execEncApdu_refused {apdu : List Byte} (h : apdu.length > Config.APDU_MAX) (a : Byte) (s : State) :
    exec (.encApdu a apdu) s = .next (deliver (.fault .encodeRefused) s) := by
  simp only [exec, execEncApdu, h, if_true, raise]

theorem execDec_eq (s : State) :
    exec .dec s = .next { s with
      dph := .hdr, dcnt := 5, rxLen := 0, dack := false, derr := 0x00, rxbuf := [] } := rfl

end Sys2Proof.Machine
end

