-- ==== Sys2Proof/Laws/Decoder.lean ====
section
/-! SUPPORT. What the decoder's steps do to a buffer that holds a byte sequence: the header evaluation and the validation of
a frame, each as one case distinction on the bytes. -/

namespace Sys2Proof.Machine

/-! ## Bytes of a sequence -/

theorem byteAt_append_left {F G : List Byte} {i : Nat} (h : i < F.length) : byteAt (F ++ G) i = byteAt F i := by
  simp [byteAt, List.getElem?_append_left h]

theorem frameLength_append {F : List Byte} (G : List Byte) (h : 4 ≤ F.length) : frameLength (F ++ G) = frameLength F := by
  rw [frameLength, frameLength, byteAt_append_left (by omega), byteAt_append_left (by omega)]

theorem frameLength_lt (F : List Byte) : frameLength F < 65536 := (be16 (byteAt F 2) (byteAt F 3)).isLt

theorem rxCap_bounds (c : Cfg) : 9 ≤ c.rxCap ∧ c.rxCap ≤ 65541 := by
  have h := c.wf
  simp only [RawCfg.wellFormed, RawCfg.rxCapOk, Bool.and_eq_true, decide_eq_true_eq] at h
  exact h.1.2

theorem start_ne_ack (c : Cfg) : c.start ≠ Config.ACK := by
  have h := c.wf
  simp only [RawCfg.wellFormed, RawCfg.startOk, Bool.and_eq_true, bne_iff_ne] at h
  exact h.1.1.1

/-! ## The header -/

/-- R146 to R149 on a corrected header `C`. -/
theorem checkStart_ofBytes {s : State} {C : List Byte} (hb : s.rxbuf = Memory.ofBytes C) (hl : 4 ≤ C.length) :
    checkStart s =
      if byteAt C 0 ≠ s.cfg.start then decodeFail .badStart s
      else if s.dack = false ∧ s.cfg.ackAbsent = .desync then decodeFail .ackMissing s
      else if frameLength C < 3 then decodeFail .shortLength s
      else if frameLength C + 6 > s.cfg.rxCap then decodeFail .tooLong s
      else startTail (frameLength C) s := by
  unfold checkStart checkAck checkLength
  rw [withByte_ofBytes hb (by omega), withByte_ofBytes hb (by omega), withByte_ofBytes hb (by omega)]
  rfl

/-- R145: the acknowledgment byte is stripped off the five header bytes. -/
theorem stripAck_ofBytes {s : State} {h0 h1 h2 h3 h4 : Byte} (hb : s.rxbuf = Memory.ofBytes [h0, h1, h2, h3, h4])
    (k : State → Result) :
    stripAck s k = k { s with rxbuf := Memory.ofBytes [h1, h2, h3, h4], rxLen := 4, dack := true } := by
  unfold stripAck
  rw [withByte_ofBytes hb (by simp), withByte_ofBytes hb (by simp), withByte_ofBytes hb (by simp),
    withByte_ofBytes hb (by simp), hb]
  rfl

/-- R145 on the five header bytes. -/
theorem evalHeader_ofBytes {s : State} {h0 h1 h2 h3 h4 : Byte} (hb : s.rxbuf = Memory.ofBytes [h0, h1, h2, h3, h4]) :
    evalHeader s =
      if h0 = Config.ACK then
        checkStart { s with rxbuf := Memory.ofBytes [h1, h2, h3, h4], rxLen := 4, dack := true }
      else checkStart { s with dack := false } := by
  unfold evalHeader
  rw [withByte_ofBytes hb (by simp), stripAck_ofBytes hb]
  simp [ackFlag, byteAt]

/-! ## The frame -/

/-- R151, R152 on the frame `F`. -/
theorem validateFrame_ofBytes {s : State} {F : List Byte} (hb : s.rxbuf = Memory.ofBytes F)
    (hn : s.rxLen.toNat = F.length) (hl : 2 ≤ F.length) :
    validateFrame s =
      if byteAt F (F.length - 2) ≠ s.cfg.endMark then decodeFail .badEnd s
      else if bcc (F.take (F.length - 1)) ≠ byteAt F (F.length - 1) then decodeFail .checksumMismatch s
      else decodeDone s := by
  unfold validateFrame checkChecksum
  have hf : s.rxbuf.first (F.length - 1) = some (F.take (F.length - 1)) := by
    rw [hb, Memory.first_ofBytes F _ (by omega)]
  rw [hn, withByte_ofBytes hb (by omega), hf]
  simp only [withByte_ofBytes hb (show F.length - 1 < F.length by omega)]

end Sys2Proof.Machine
end

