-- ==== Sys2Proof/Laws/PerInstr.lean ====
section
/-! SUPPORT. Facts about every host operation as syntax, one lemma for each constructor. -/

namespace Sys2Proof.Laws.EncodingShape

/-- The bytes of an operation begin with its operation code (R77) and are as many as its format has (R78). -/
def Statement (i : Instr) : Prop := (encode i).head? = some (opcode i) ∧ (encode i).length = byteLength i

theorem bccClr : Statement .bccClr := ⟨rfl, rfl⟩
theorem bccUpd (b : Byte) : Statement (.bccUpd b) := ⟨rfl, rfl⟩
theorem bccRd : Statement .bccRd := ⟨rfl, rfl⟩
theorem crcInit : Statement .crcInit := ⟨rfl, rfl⟩
theorem crcUpd (b : Byte) : Statement (.crcUpd b) := ⟨rfl, rfl⟩
theorem crcRd : Statement .crcRd := ⟨rfl, rfl⟩
theorem crcBrev : Statement .crcBrev := ⟨rfl, rfl⟩
theorem encBasic (addr : Byte) (cm : Byte) (pm : Byte) : Statement (.encBasic addr cm pm) := ⟨rfl, rfl⟩
theorem encApdu (addr : Byte) (apdu : List Byte) : Statement (.encApdu addr apdu) := ⟨rfl, by simp [encode, operandBytes, byteLength]; omega⟩
theorem dec : Statement .dec := ⟨rfl, rfl⟩
theorem rxLen : Statement .rxLen := ⟨rfl, rfl⟩
theorem rxRd (index : Index24) : Statement (.rxRd index) := ⟨rfl, rfl⟩
theorem clsTsucc : Statement .clsTsucc := ⟨rfl, rfl⟩
theorem clsAsucc : Statement .clsAsucc := ⟨rfl, rfl⟩
theorem clsAdesc : Statement .clsAdesc := ⟨rfl, rfl⟩
theorem clsStat : Statement .clsStat := ⟨rfl, rfl⟩
theorem clsErr : Statement .clsErr := ⟨rfl, rfl⟩
theorem clsFields : Statement .clsFields := ⟨rfl, rfl⟩
theorem regRd (n : Byte) : Statement (.regRd n) := ⟨rfl, rfl⟩

end Sys2Proof.Laws.EncodingShape
end

