-- ==== Sys2Proof/Laws/Steps.lean ====
section
/-! SUPPORT. What a step can do, by the agent that moves, and how steps add up. -/

namespace Sys2Proof.Machine

/-! ## One step -/

/-- A step with the reset line high is a reset event. -/
theorem step_reset {s : State} {line : List Bool} (h : s.resetLine = true :: line) :
    step s = .next (resetEvent { s with resetLine := line }) := by simp [step, agentStep, h]

/-- A step with the reset line low is the block's, with the line's sample taken. -/
theorem step_noReset {s : State} (h : noReset s) : step s = blockStep (tick s) := by
  obtain ⟨line, hl⟩ : ∃ line, s.resetLine = line := ⟨_, rfl⟩
  cases line with
  | nil =>
    have e : tick s = s := by cases s; simp_all [tick]
    simp [step, agentStep, hl, e]
  | cons b rest =>
    cases b with
    | false => simp [step, agentStep, tick, hl]
    | true => exact absurd (by simp [hl]) h

/-- Every step is a reset event or a step of the block. -/
theorem step_cases (s : State) :
    (∃ line, s.resetLine = true :: line ∧ step s = .next (resetEvent { s with resetLine := line })) ∨
      (noReset s ∧ step s = blockStep (tick s)) := by
  by_cases h : noReset s
  · exact .inr ⟨h, step_noReset h⟩
  · left
    obtain ⟨line, hl⟩ : ∃ line, s.resetLine = line := ⟨_, rfl⟩
    match line, hl with
    | [], hl => exact absurd (by simp [noReset, hl]) h
    | false :: _, hl => exact absurd (by simp [noReset, hl]) h
    | true :: rest, hl => exact ⟨rest, hl, step_reset hl⟩

theorem blockStep_busy {s : State} (h : s.dph.busy = true) : blockStep s = decoderStep s := by simp [blockStep, h]

theorem blockStep_quiet {s : State} (h : s.dph.busy = false) : blockStep s = hostStep s := by simp [blockStep, h]

/-- In a busy phase a step without a reset is the decoder's. -/
theorem step_busy {s : State} (h : noReset s) (hb : s.dph.busy = true) : step s = decoderStep (tick s) :=
  (step_noReset h).trans (blockStep_busy (s := tick s) hb)

/-- In a quiet phase a step without a reset is the host's. -/
theorem step_quiet {s : State} (h : noReset s) (hb : s.dph.busy = false) : step s = hostStep (tick s) :=
  (step_noReset h).trans (blockStep_quiet (s := tick s) hb)

theorem hostStep_op {s : State} {i : Instr} {rest : List Byte} (h : decode s.ops = .op i rest) :
    hostStep s = exec i { s with ops := rest } := by simp [hostStep, h]

theorem hostStep_reserved {s : State} {code : Byte} {rest : List Byte} (h : decode s.ops = .reserved code rest) :
    hostStep s = .next (deliver (.fault .illegalOp) { s with ops := rest }) := by simp [hostStep, h, raise]

theorem hostStep_incomplete {s : State} (h : decode s.ops = .incomplete) :
    hostStep s = .refused .incompleteOperation := by simp [hostStep, h]

theorem hostStep_nothing {s : State} (h : decode s.ops = .nothing) : hostStep s = .next s := by simp [hostStep, h]

theorem decoderStep_byte {s : State} {b : Byte} {more : List RxAnswer} (h : s.inbound = .byte b :: more) :
    decoderStep s = storeByte b { s with inbound := more, rxPos := s.rxPos + 1 } afterByte := by simp [decoderStep, h]

theorem decoderStep_error {s : State} {more : List RxAnswer} (h : s.inbound = .ioError :: more) :
    decoderStep s = decodeFail .channelIOError { s with inbound := more } := by simp [decoderStep, h]

theorem decoderStep_nothingYet {s : State} {more : List RxAnswer} (h : s.inbound = .nothingYet :: more) :
    decoderStep s = .next { s with inbound := more } := by simp [decoderStep, h]

theorem decoderStep_empty {s : State} (h : s.inbound = []) : decoderStep s = .next s := by simp [decoderStep, h]

/-! ## Many steps -/

@[simp] theorem steps_zero (s : State) : steps 0 s = .next s := rfl

theorem steps_succ {s t : State} (n : Nat) (h : step s = .next t) : steps (n + 1) s = steps n t := by
  simp [steps, h]

theorem steps_one (s : State) : steps 1 s = step s := by
  unfold steps
  split <;> simp_all

/-- Steps add up. -/
theorem steps_add {m : Nat} (n : Nat) {s t : State} (h : steps m s = .next t) : steps (m + n) s = steps n t := by
  induction m generalizing s with
  | zero => cases h; simp
  | succ m ih =>
    rw [Nat.succ_add]
    simp only [steps] at h ⊢
    split at h
    · exact ih h
    · cases h
    · cases h

/-- `steps` is the host's own run of the machine. -/
theorem steps_eq_run (n : Nat) (s : State) : steps n s = Sys2Proof.core.run n s := by
  induction n generalizing s with
  | zero => rfl
  | succ n ih =>
    cases h : step s with
    | next t =>
      have h' : Sys2Proof.core.step s = .next t := h
      simp only [steps, h, Host.Core.run, h']
      exact ih t
    | fault r =>
      have h' : Sys2Proof.core.step s = .fault r := h
      simp only [steps, h, Host.Core.run, h']
      rfl
    | refused r =>
      have h' : Sys2Proof.core.step s = .refused r := h
      simp only [steps, h, Host.Core.run, h']
      rfl

end Sys2Proof.Machine
end

