-- ==== Sys2Proof/Tests/Slice0.lean ====
section
/-! SUPPORT. Tests. Expected values come from spec/95_test_vectors.md (V, P, T0) or from the encodings of
spec/30_encoding.md. Then, for each statement with hypotheses, a state and operands that meet them. -/

namespace Sys2Proof.Tests

open Sys2Proof Sys2Proof.Machine

/-! ## The test configuration T0 and small states -/

/-- T0 of spec/95_test_vectors.md, which is an example and no part of the machine. -/
def t0Raw : RawCfg where
  start := 0xF2
  endMark := 0x03
  cmt := 0x43
  pmt := 0x50
  actrl1 := 0x60
  actrl2 := 0x34
  offSt0 := 7
  offSt1 := 8
  offSt2 := 9
  offE1 := 7
  offE0 := 8
  dispTable := [(0x30, 0), (0x31, 1), (0x32, 2)]
  stackTable := [(0x30, 0), (0x31, 1), (0x32, 2)]
  captTable := [(0x30, 0), (0x31, 1)]
  errTable := [(0x3030, 0), (0x3031, 1), (0x3130, 2)]
  apduTable := [(0x9000, 0), (0x9100, 1), (0x91AE, 2), (0x91AF, 3)]
  ackAbsent := .desync
  rxCap := 65541

def t0 : Cfg := ⟨t0Raw, by decide⟩

/-- T0 with `ACK_ABSENT = realign`. -/
def t0Realign : Cfg := ⟨{ t0Raw with ackAbsent := .realign }, by decide⟩

/-- T0 with a buffer of 12 bytes (V77). -/
def t0Small : Cfg := ⟨{ t0Raw with rxCap := 12 }, by decide⟩

/-- The reset values of R36 under a configuration, nothing to do and nothing on the channel. -/
def fresh (c : Cfg) : State where
  cfg := c
  bcc := 0x00
  crc := 0xFFFFFFFF
  rxbuf := []
  rxLen := 0
  dph := .idle
  dcnt := 0
  dack := false
  derr := 0x00
  ops := []
  results := []
  inbound := []
  rxPos := 0
  outbound := []
  txAnswers := []
  resetLine := []

def quiet : State := fresh t0

/-- A quiet state with bytes to issue. -/
def withOps (bs : List Byte) : State := { quiet with ops := bs }

/-- A frame was received (R170). -/
def holding (F : List Byte) : State :=
  { quiet with dph := .done, rxbuf := Memory.ofBytes F, rxLen := BitVec.ofNat 17 F.length }

/-- A decode in `HDR`, `bs` of the five header bytes there. -/
def inHeader (c : Cfg) (bs : List Byte) (answers : List RxAnswer) : State :=
  { fresh c with
    dph := .hdr, rxbuf := Memory.ofBytes bs, rxLen := BitVec.ofNat 17 bs.length,
    dcnt := BitVec.ofNat 17 (5 - bs.length), inbound := answers }

/-- A decode in `TAIL`, `bs` there and `n` bytes to come. -/
def inTail (bs : List Byte) (n : Nat) (answers : List RxAnswer) : State :=
  { quiet with
    dph := .tail, rxbuf := Memory.ofBytes bs, rxLen := BitVec.ofNat 17 bs.length, dcnt := BitVec.ofNat 17 n,
    dack := true, inbound := answers }

def r1 : List Byte := [0xF2, 0x00, 0x00, 0x06, 0x50, 0x30, 0x33, 0x30, 0x31, 0x30, 0x03, 0x95]
def r2 : List Byte := [0xF2, 0x00, 0x00, 0x05, 0x4E, 0x30, 0x33, 0x31, 0x30, 0x03, 0xB8]
def r3 : List Byte :=
  [0xF2, 0x00, 0x00, 0x0A, 0x50, 0x60, 0x34, 0x30, 0x30, 0x30, 0x04, 0x01, 0x91, 0x00, 0x03, 0x5B]
def r5 : List Byte := [0xF2, 0x00, 0x00, 0x08, 0x50, 0x60, 0x34, 0x30, 0x30, 0x30, 0x6A, 0x82, 0x03, 0x25]
def r6 : List Byte :=
  [0xF2, 0x00, 0x00, 0x0A, 0x50, 0x60, 0x34, 0x30, 0x30, 0x30, 0x11, 0x22, 0x91, 0xAF, 0x03, 0xC2]
def r9 : List Byte := [0xF2, 0x00, 0x00, 0x06, 0x50, 0x30, 0x33, 0x33, 0x30, 0x30, 0x03, 0x97]
def r10 : List Byte := [0xF2, 0x00, 0x00, 0x05, 0x4E, 0x30, 0x33, 0x39, 0x39, 0x03, 0xB9]
def r11 : List Byte := [0xF2, 0x00, 0x00, 0x03, 0x50, 0x30, 0x33, 0x03, 0xA1]
def r12 : List Byte := [0xF2, 0x00, 0x00, 0x06, 0x50, 0x30, 0x33, 0x30, 0x31, 0x32, 0x03, 0x97]
def r13 : List Byte := [0xF2, 0x00, 0x00, 0x06, 0x50, 0x30, 0x33, 0x30, 0x39, 0x39, 0x03, 0x94]

/-- What the last operation of a step ended with. -/
def returned : Result → Option Response
  | .next t => t.results.getLast?
  | .fault _ | .refused _ => none

/-- One view of the next state. -/
def seen {α : Type} (view : State → α) : Result → Option α
  | .next t => some (view t)
  | .fault _ | .refused _ => none

/-! ## Well-formedness -/

/-- `n` bytes of zeros, for APDUs at the ends of the lengths. -/
def zeros (n : Nat) : List Byte := List.replicate n 0x00

theorem length_zeros (n : Nat) : (zeros n).length = n := List.length_replicate

theorem wellFormed_zeros (addr : Byte) (n : Nat) : (Instr.encApdu addr (zeros n)).wellFormed = decide (n ≤ 65535) := by
  rw [Instr.wellFormed, apduFits, length_zeros]

theorem test_longest_apdu_is_wellFormed : (Instr.encApdu 0xFF (zeros 65535)).wellFormed = true := by
  rw [wellFormed_zeros]; decide

theorem test_longer_apdu_is_refused : (Instr.encApdu 0x00 (zeros 65536)).wellFormed = false := by
  rw [wellFormed_zeros]; decide

theorem test_start_equal_to_ack_is_refused : RawCfg.toCfg? { t0Raw with start := 0x06 } = none := by decide
theorem test_table_without_91AE_is_refused :
    RawCfg.toCfg? { t0Raw with apduTable := [(0x9000, 0), (0x9100, 1), (0x91AF, 3)] } = none := by decide
theorem test_table_with_6A82_is_refused :
    RawCfg.toCfg? { t0Raw with apduTable := (0x6A82, 4) :: t0Raw.apduTable } = none := by decide
theorem test_small_buffer_is_refused : RawCfg.toCfg? { t0Raw with rxCap := 8 } = none := by decide
theorem test_large_buffer_is_refused : RawCfg.toCfg? { t0Raw with rxCap := 65542 } = none := by decide
theorem test_low_offset_is_refused : RawCfg.toCfg? { t0Raw with offE0 := 4 } = none := by decide

/-! ## Decoding: the words of R85, written out, one for each constructor -/

theorem test_decode_bccClr : decode [0x10] = .op .bccClr [] := by decide
theorem test_decode_bccUpd : decode [0x11, 0xF2] = .op (.bccUpd 0xF2) [] := by decide
theorem test_decode_bccRd : decode [0x12, 0x11] = .op .bccRd [0x11] := by decide
theorem test_decode_crcInit : decode [0x20] = .op .crcInit [] := by decide
theorem test_decode_crcUpd : decode [0x21, 0x31] = .op (.crcUpd 0x31) [] := by decide
theorem test_decode_crcRd : decode [0x22] = .op .crcRd [] := by decide
theorem test_decode_crcBrev : decode [0x23] = .op .crcBrev [] := by decide
/-- V40 -/
theorem test_decode_encBasic : decode [0x30, 0x00, 0x30, 0x33] = .op (.encBasic 0x00 0x30 0x33) [] := by decide
/-- V44 -/
theorem test_decode_encApdu : decode [0x31, 0x01, 0x00, 0x05, 0x90, 0x60, 0x00, 0x00, 0x00, 0x40] =
    .op (.encApdu 0x01 [0x90, 0x60, 0x00, 0x00, 0x00]) [0x40] := by decide
theorem test_decode_dec : decode [0x40] = .op .dec [] := by decide
theorem test_decode_rxLen : decode [0x41] = .op .rxLen [] := by decide
theorem test_decode_rxRd : decode [0x42, 0x01, 0x02, 0x03] = .op (.rxRd 66051) [] := by decide
theorem test_decode_clsTsucc : decode [0x50] = .op .clsTsucc [] := by decide
theorem test_decode_clsAsucc : decode [0x51] = .op .clsAsucc [] := by decide
theorem test_decode_clsAdesc : decode [0x52] = .op .clsAdesc [] := by decide
theorem test_decode_clsStat : decode [0x53] = .op .clsStat [] := by decide
theorem test_decode_clsErr : decode [0x54] = .op .clsErr [] := by decide
theorem test_decode_clsFields : decode [0x55] = .op .clsFields [] := by decide
theorem test_decode_regRd : decode [0x60, 0x09] = .op (.regRd 9) [] := by decide
/-- V98 -/
theorem test_decode_reserved :
    [0x00#8, 0x13#8, 0x24#8, 0x32#8, 0x43#8, 0x56#8, 0x61#8, 0xFF#8].all (fun c => decode [c, 0x10] = .reserved c [0x10]) =
      true := by decide
theorem test_decode_incomplete : decode [0x31, 0x00, 0x00, 0x02, 0x90] = .incomplete := by decide
theorem test_tableWord_encBasic : decodeTableWord 32 0x33300030 = some (.encBasic 0x00 0x30 0x33) := by decide
theorem test_tableWord_encApdu : decodeTableWord 32 0x02000731 = some (.encApdu 0x07 [0x00, 0x00]) := by decide
theorem test_fetch : returned (step (State.reset.withFetchWord 16 0x0260)) = some (.ok (.word 0xFFFFFFFF)) := by decide

/-! ## BCC and CRC families -/

/-- V14 -/
theorem test_bccClr : seen State.bcc (exec .bccClr { quiet with bcc := 0x5A }) = some 0x00 := by decide
/-- V11 -/
theorem test_bccUpd : seen State.bcc (exec (.bccUpd 0x43) { quiet with bcc := 0xF2 }) = some 0xB1 := by decide
/-- V15 -/
theorem test_bccRd : returned (exec .bccRd { quiet with bcc := 0xB2 }) = some (.ok (.byte 0xB2)) := by decide
/-- V8 -/
theorem test_bcc : bcc [0xF2, 0x00, 0x00, 0x03, 0x43, 0x30, 0x33, 0x03] = 0xB2 := by decide
/-- P2, step 14 -/
theorem test_crcInit : seen State.crc (exec .crcInit { quiet with crc := 0x340BC6D9 }) = some 0xFFFFFFFF := by decide
/-- V24's first byte -/
theorem test_crcUpd : seen State.crc (exec (.crcUpd 0x31) quiet) = some 0x7C231048 := by decide +kernel
/-- V21's first round -/
theorem test_crcRound : crcRound 0xFFFFFFFF = 0x92477CDF := by decide
/-- P2, step 5 -/
theorem test_crcRd : returned (exec .crcRd { quiet with crc := 0x77B79C2D }) = some (.ok (.word 0x77B79C2D)) := by decide
/-- V33: inner zero bytes kept -/
theorem test_crcBrev_three :
    returned (exec .crcBrev { quiet with crc := 0x00010000 }) = some (.ok (.bytes [0x00, 0x00, 0x01])) := by decide
/-- V36: zero gives one byte -/
theorem test_crcBrev_zero : returned (exec .crcBrev { quiet with crc := 0 }) = some (.ok (.bytes [0x00])) := by decide

/-! ## Frame encoder -/

/-- V43: no escaping -/
theorem test_encBasic : seen State.outbound (exec (.encBasic 0xF2 0x03 0x06) { quiet with txAnswers := [.ok] }) =
    some [[0xF2, 0xF2, 0x00, 0x03, 0x43, 0x03, 0x06, 0x03, 0x46]] := by decide
/-- V49c -/
theorem test_encBasic_error :
    returned (exec (.encBasic 0x00 0x30 0x33) { quiet with txAnswers := [.ioError 4] }) =
      some (.fault .channelIOError) := by decide
/-- V44 -/
theorem test_encApdu :
    seen State.outbound (exec (.encApdu 0x00 [0x90, 0x60, 0x00, 0x00, 0x00]) { quiet with txAnswers := [.ok] }) =
      some [[0xF2, 0x00, 0x00, 0x08, 0x43, 0x60, 0x34, 0x90, 0x60, 0x00, 0x00, 0x00, 0x03, 0x1E]] := by decide
/-- V49b -/
theorem test_encApdu_refused :
    exec (.encApdu 0x00 (zeros 65533)) quiet = .next { quiet with results := [.fault .encodeRefused] } :=
  execEncApdu_refused (by rw [length_zeros]; decide) 0x00 quiet

/-! ## Frame decoder -/

/-- R143 -/
theorem test_dec : seen (fun t => (t.dph, t.dcnt, t.rxLen, t.rxbuf)) (exec .dec (holding r3)) = some (.hdr, 5, 0, []) := by
  decide
/-- V50's fifth byte -/
theorem test_header_strips_the_acknowledgment :
    seen (fun t => (t.dcnt, t.rxLen, t.dack)) (step (inHeader t0 [0x06, 0xF2, 0x00, 0x00] [.byte 0x06])) =
        some (8, 4, true) ∧
      seen (fun t => (t.dph, t.rxbuf)) (step (inHeader t0 [0x06, 0xF2, 0x00, 0x00] [.byte 0x06])) =
        some (.tail, Memory.ofBytes [0xF2, 0x00, 0x00, 0x06]) := by decide
/-- V50's last byte -/
theorem test_tail_completes_the_frame :
    seen (fun t => (t.results, t.rxbuf)) (step (inTail (r1.take 11) 1 [.byte 0x95])) =
      some ([.ok (.count 12)], Memory.ofBytes r1) := by decide
/-- V58: END is tested before the checksum -/
theorem test_tail_bad_end :
    returned (step (inTail (r1.take 10 ++ [0x04]) 1 [.byte 0x94])) = some (.fault .badEnd) := by decide
/-- V78 -/
theorem test_channel_error :
    seen statusWord (step (inHeader t0 [0x06, 0xF2, 0x00] [.ioError])) = some 0x1804 := by decide
/-- V50, V51, V52, V54 -/
theorem test_stream_ack : decodeStream t0 (0x06 :: r1) = (.frame r1 true, 13) := by decide
theorem test_stream_ack_missing : decodeStream t0 r1 = (.failed .ackMissing false, 5) := by decide
theorem test_stream_realign : decodeStream t0Realign r1 = (.frame r1 false, 12) := by decide
theorem test_stream_two_acks : decodeStream t0 (0x06 :: 0x06 :: r1) = (.failed .badStart true, 5) := by decide
/-- V71, V72, V77, V77b -/
theorem test_stream_length_too_large : decodeStream t0 ([0x06, 0xF2, 0x00, 0x00, 0x07] ++ r1.drop 4 ++ [0x06, 0xF2]) =
    (.failed .badEnd true, 14) := by decide
theorem test_stream_length_too_small : decodeStream t0 ([0x06, 0xF2, 0x00, 0x00, 0x05] ++ r1.drop 4) =
    (.failed .badEnd true, 12) := by decide
theorem test_stream_too_long : decodeStream t0Small (0x06 :: r3) = (.failed .tooLong true, 5) := by decide
theorem test_stream_just_fits : decodeStream t0Small (0x06 :: r1) = (.frame r1 true, 13) := by decide
/-- After V50 -/
theorem test_rxLen : returned (exec .rxLen (holding r1)) = some (.ok (.count 12)) := by decide
theorem test_rxRd : returned (exec (.rxRd 4) (holding r1)) = some (.ok (.byte 0x50)) := by decide
theorem test_rxRd_bad_index : returned (exec (.rxRd 12) (holding r1)) = some (.fault .badIndex) := by decide

/-! ## Classifier -/

/-- V63, V62 -/
theorem test_clsTsucc : returned (exec .clsTsucc (holding r3)) = some (.ok (.bool true)) := by decide
theorem test_clsTsucc_negative : returned (exec .clsTsucc (holding r2)) = some (.ok (.bool false)) := by decide
/-- V67, V66 -/
theorem test_clsAsucc : returned (exec .clsAsucc (holding r6)) = some (.ok (.apduSuccess true true)) := by decide
theorem test_clsAsucc_short : returned (exec .clsAsucc (holding r11)) = some (.fault .shortFrame) := by decide
/-- V67, V65 -/
theorem test_clsAdesc : returned (exec .clsAdesc (holding r6)) = some (.ok (.index 3)) := by decide
theorem test_clsAdesc_missed :
    returned (exec .clsAdesc (holding r5)) = some (.fault (.undocumentedStatusWord 0x6A82)) := by decide
/-- V80, V83 -/
theorem test_clsStat : returned (exec .clsStat (holding r1)) = some (.ok (.status 0 1 0)) := by decide
theorem test_clsStat_missed :
    returned (exec .clsStat (holding r13)) = some (.fault (.unknownStatusCode .stacker 0x39)) := by decide
/-- V62, V66c -/
theorem test_clsErr : returned (exec .clsErr (holding r2)) = some (.ok (.errorCode 0x3130 2)) := by decide
theorem test_clsErr_missed : returned (exec .clsErr (holding r10)) = some (.fault (.unknownErrorCode 0x3939)) := by decide
/-- R172's example -/
theorem test_clsFields : returned (exec .clsFields (holding r3)) = some (.ok (.fields
    { addr := 0x00, len := 10, msgType := 0x50, ctrl1 := 0x60, ctrl2 := 0x34, bodyOff := 7, bodyLen := 7,
      endMark := 0x03, checksum := 0x5B })) := by decide

/-! ## Registers and reset -/

/-- V93 -/
theorem test_regRd_status : returned (exec (.regRd 0) { quiet with dph := .fail, dack := true, derr := 0x08 }) =
    some (.ok (.word 0x0000080C)) := by decide
/-- T0's configuration registers -/
theorem test_regRd_configuration :
    [5#8, 6#8, 7#8, 8#8, 9#8].map (fun n => regValue n quiet) =
      [some 0x504303F2, some 0x00346006, some 0x00090807, some 0x00000807, some 0x00010005] := by decide
/-- T0 with `realign` -/
theorem test_cfg1_realign : cfg1 t0Realign = 0x01346006 := by decide
/-- R231 -/
theorem test_reset_in_mid_frame :
    seen (fun t => (t.dph, t.rxbuf, t.results)) (step { inTail (r1.take 6) 6 [.byte 0x30] with resetLine := [true] }) =
      some (.idle, [], [.aborted]) := by decide

/-! ## Witnesses: states and operands that meet the hypotheses of each statement, at the ends of their ranges -/

theorem quiet_inv : BlockInv quiet := ⟨⟨by decide, by decide, by decide⟩, ⟨rfl, rfl, rfl, rfl⟩⟩

theorem holding_r1_inv : BlockInv (holding r1) := ⟨⟨by decide, by decide, by decide⟩, ⟨rfl, rfl, by decide⟩⟩

/-- The smallest frame. -/
theorem holding_r11_inv : BlockInv (holding r11) := ⟨⟨by decide, by decide, by decide⟩, ⟨rfl, rfl, by decide⟩⟩

theorem inHeader_inv : BlockInv (inHeader t0 [0x06, 0xF2, 0x00, 0x00] [.byte 0x06]) :=
  ⟨⟨by decide, by decide, by decide⟩, ⟨by decide, by decide, by decide, rfl, rfl⟩⟩

theorem inTail_inv : BlockInv (inTail (r1.take 11) 1 [.byte 0x95]) :=
  ⟨⟨by decide, by decide, by decide⟩,
    ⟨by decide, by decide, by decide, rfl, by decide, by decide, by decide⟩⟩

theorem fail_inv : BlockInv { quiet with dph := .fail, derr := 0x05, dack := true } :=
  ⟨⟨by decide, by decide, by decide⟩, ⟨rfl, rfl, by decide⟩⟩

theorem holds_r1 : HoldsFrame (holding r1) r1 := ⟨rfl, rfl, by decide⟩
theorem holds_r2 : HoldsFrame (holding r2) r2 := ⟨rfl, rfl, by decide⟩
theorem holds_r5 : HoldsFrame (holding r5) r5 := ⟨rfl, rfl, by decide⟩
theorem holds_r6 : HoldsFrame (holding r6) r6 := ⟨rfl, rfl, by decide⟩
theorem holds_r11 : HoldsFrame (holding r11) r11 := ⟨rfl, rfl, by decide⟩

theorem witness_DecodeOfEncodeGivesTheOperation :
    (Instr.encApdu 0xFF (zeros 65535)).wellFormed = true ∧ (Instr.encApdu 0x00 []).wellFormed = true ∧
      (Instr.rxRd 0xFFFFFF).wellFormed = true :=
  ⟨test_longest_apdu_is_wellFormed, by decide, by decide⟩

theorem witness_DecodedBytesAreTheEncodedOperation :
    decode [0x42, 0xFF, 0xFF, 0xFF, 0x10] = .op (.rxRd 0xFFFFFF) [0x10] := by decide

theorem witness_ReservedCodesReturnIllegalOp :
    noReset (withOps [0x13, 0x10]) ∧ (withOps [0x13, 0x10]).dph.busy = false ∧ (withOps [0x13, 0x10]).ops = [0x13, 0x10] ∧
      (0x13#8 ∉ [0x10#8, 0x11#8, 0x12#8, 0x20#8, 0x21#8, 0x22#8, 0x23#8, 0x30#8, 0x31#8, 0x40#8, 0x41#8, 0x42#8, 0x50#8,
        0x51#8, 0x52#8, 0x53#8, 0x54#8, 0x55#8, 0x60#8]) := by decide

theorem witness_MissingOperandBytesHaveNoMeaning :
    (noReset (withOps [0x31]) ∧ (withOps [0x31]).dph.busy = false ∧ decode (withOps [0x31]).ops = .incomplete) ∧
      ((Instr.encApdu 0x00 [0x90]).wellFormed = true ∧ 0 < 4 ∧ 4 < (encode (.encApdu 0x00 [0x90])).length) := by decide

theorem witness_StepRunsTheDecodedOperation :
    noReset (withOps [0x11, 0x43, 0x12]) ∧ (withOps [0x11, 0x43, 0x12]).dph.busy = false ∧
      decode (withOps [0x11, 0x43, 0x12]).ops = .op (.bccUpd 0x43) [0x12] := by decide

theorem witness_HostIsBlockedDuringADecode :
    (inHeader t0 [] [.byte 0x06]).dph.busy = true ∧
      seen (fun t => t.dph.busy) (step (inHeader t0 [] [.byte 0x06])) = some true ∧
      seen (fun t => t.dph.busy) (step (inTail (r1.take 11) 1 [.byte 0x95])) = some false := by decide

theorem witness_ResetEventSetsTheBlockOnly :
    { inTail (r1.take 6) 6 [.byte 0x30] with resetLine := [true, false] }.resetLine = true :: [false] := rfl

theorem witness_ResetAbortsAWaitingDec :
    { inTail (r1.take 6) 6 [] with resetLine := [true] }.resetLine = true :: [] ∧
      { inTail (r1.take 6) 6 [] with resetLine := [true] }.dph.busy = true ∧
      { quiet with resetLine := [true] }.resetLine = true :: [] ∧ { quiet with resetLine := [true] }.dph.busy = false :=
  ⟨rfl, rfl, rfl, rfl⟩

theorem witness_BccLaws :
    [0x01#8, 0x02#8].Perm [0x02#8, 0x01#8] ∧ [0x81#8, 0x00#8, 0x81#8].length = [0x10#8, 0x20#8, 0x30#8].length ∧
      ∀ k, k < 8 → Even ([0x81#8, 0x00#8, 0x81#8].countP fun m => m.getLsbD k) := by decide

theorem witness_CrcUpdProcessesOneByte : quiet.crc = 0xFFFFFFFF := rfl

theorem witness_EncBasicSendsItsFrame :
    { quiet with txAnswers := [.ok] }.txAnswers = .ok :: [] ∧
      { quiet with txAnswers := [.ioError 0, .ok] }.txAnswers = .ioError 0 :: [.ok] ∧
      { quiet with txAnswers := [.ioError 9] }.txAnswers = .ioError 9 :: [] := ⟨rfl, rfl, rfl⟩

theorem witness_EncApduSendsItsFrameOrRefuses :
    (zeros 65535).length ≤ 65535 ∧ (zeros 65532).length ≤ 65532 ∧ (zeros 0).length ≤ 65532 ∧ 65532 < (zeros 65533).length ∧
      { quiet with txAnswers := [.ok] }.txAnswers = .ok :: [] ∧
      { quiet with txAnswers := [.ioError 3] }.txAnswers = .ioError 3 :: [] := by
  simp only [length_zeros]
  decide

theorem witness_UnlistedWriteAnswersAreFree :
    quiet.txAnswers = [] ∧
      (∃ addr cm pm, Instr.encBasic 0x00 0x30 0x33 = .encBasic addr cm pm ∧
        encBasicFrame quiet.cfg 0x00 0x30 0x33 = encBasicFrame quiet.cfg addr cm pm) ∧
      (∃ addr A, Instr.encApdu 0x00 (zeros 65532) = .encApdu addr A ∧ A.length ≤ 65532 ∧
        encApduFrame quiet.cfg 0x00 (zeros 65532) = encApduFrame quiet.cfg addr A) :=
  ⟨rfl, ⟨_, _, _, rfl, rfl⟩, ⟨_, zeros 65532, rfl, Nat.le_of_eq (length_zeros _), rfl⟩⟩

theorem witness_EncodedFramesAreWellFormed :
    (∃ addr cm pm, encBasicFrame t0 0x00 0x30 0x33 = encBasicFrame t0 addr cm pm) ∧
      (∃ addr A, A.length ≤ 65532 ∧ encApduFrame t0 0xFF (zeros 65532) = encApduFrame t0 addr A) :=
  ⟨⟨_, _, _, rfl⟩, ⟨_, zeros 65532, Nat.le_of_eq (length_zeros _), rfl⟩⟩

/-- In `HDR`, the first byte; in `TAIL`, the last byte but one, at the last index but one of a full buffer. -/
theorem witness_DecoderStoresOneByte :
    (noReset (inHeader t0 [] [.byte 0x06]) ∧ (inHeader t0 [] [.byte 0x06]).dph.busy = true ∧
      (inHeader t0 [] [.byte 0x06]).inbound = [.byte 0x06] ∧
      (inHeader t0 [] [.byte 0x06]).rxLen.toNat < (inHeader t0 [] [.byte 0x06]).cfg.rxCap ∧
      (inHeader t0 [] [.byte 0x06]).dcnt ≠ 1) ∧
    (noReset { inTail (r1.take 10) 2 [.byte 0x03] with cfg := t0Small } ∧
      { inTail (r1.take 10) 2 [.byte 0x03] with cfg := t0Small }.dph.busy = true ∧
      { inTail (r1.take 10) 2 [.byte 0x03] with cfg := t0Small }.inbound = [.byte 0x03] ∧
      { inTail (r1.take 10) 2 [.byte 0x03] with cfg := t0Small }.rxLen.toNat < t0Small.rxCap ∧
      { inTail (r1.take 10) 2 [.byte 0x03] with cfg := t0Small }.dcnt ≠ 1) := by decide

/-- With an acknowledgment byte and without one. -/
theorem witness_FifthHeaderByteIsEvaluated :
    (noReset (inHeader t0 [0x06, 0xF2, 0x00, 0x00] [.byte 0x03]) ∧
      (inHeader t0 [0x06, 0xF2, 0x00, 0x00] [.byte 0x03]).dph = .hdr ∧
      (inHeader t0 [0x06, 0xF2, 0x00, 0x00] [.byte 0x03]).rxbuf = Memory.ofBytes [0x06, 0xF2, 0x00, 0x00] ∧
      (inHeader t0 [0x06, 0xF2, 0x00, 0x00] [.byte 0x03]).rxLen = 4 ∧
      (inHeader t0 [0x06, 0xF2, 0x00, 0x00] [.byte 0x03]).dcnt = 1 ∧
      (inHeader t0 [0x06, 0xF2, 0x00, 0x00] [.byte 0x03]).inbound = [.byte 0x03]) ∧
    (noReset (inHeader t0Realign [0xF2, 0x00, 0xFF, 0xFF] [.byte 0x50]) ∧
      (inHeader t0Realign [0xF2, 0x00, 0xFF, 0xFF] [.byte 0x50]).dph = .hdr ∧
      (inHeader t0Realign [0xF2, 0x00, 0xFF, 0xFF] [.byte 0x50]).rxbuf = Memory.ofBytes [0xF2, 0x00, 0xFF, 0xFF] ∧
      (inHeader t0Realign [0xF2, 0x00, 0xFF, 0xFF] [.byte 0x50]).rxLen = 4 ∧
      (inHeader t0Realign [0xF2, 0x00, 0xFF, 0xFF] [.byte 0x50]).dcnt = 1 ∧
      (inHeader t0Realign [0xF2, 0x00, 0xFF, 0xFF] [.byte 0x50]).inbound = [.byte 0x50]) := by decide

theorem witness_LastTailByteIsValidated :
    noReset (inTail (r1.take 11) 1 [.byte 0x95]) ∧ (inTail (r1.take 11) 1 [.byte 0x95]).dph = .tail ∧
      (inTail (r1.take 11) 1 [.byte 0x95]).rxbuf = Memory.ofBytes (r1.take 11) ∧
      (inTail (r1.take 11) 1 [.byte 0x95]).rxLen.toNat = (r1.take 11).length ∧ 1 ≤ (r1.take 11).length ∧
      (r1.take 11).length < t0Small.rxCap ∧ (inTail (r1.take 11) 1 [.byte 0x95]).dcnt = 1 ∧
      (inTail (r1.take 11) 1 [.byte 0x95]).inbound = [.byte 0x95] := by decide

theorem witness_ChannelErrorEndsTheDecode :
    noReset (inHeader t0 [] [.ioError]) ∧ (inHeader t0 [] [.ioError]).dph.busy = true ∧
      (inHeader t0 [] [.ioError]).inbound = [.ioError] ∧ (inHeader t0 [] [.ioError]).dph = .hdr ∧
      BlockInv (inHeader t0 [] [.ioError]) :=
  ⟨by decide, rfl, rfl, rfl, ⟨⟨by decide, by decide, by decide⟩, ⟨by decide, by decide, by decide, rfl, rfl⟩⟩⟩

theorem witness_DecoderWaitsForTheChannel :
    ((inTail (r1.take 11) 1 []).resetLine = [] ∧ (inTail (r1.take 11) 1 []).dph.busy = true ∧
      (inTail (r1.take 11) 1 []).inbound = []) ∧
    (noReset (inHeader t0 [] [.nothingYet]) ∧ (inHeader t0 [] [.nothingYet]).dph.busy = true ∧
      (inHeader t0 [] [.nothingYet]).inbound = [.nothingYet]) := by decide

/-- Each outcome of the function: it waits, it fails, it receives. -/
theorem witness_DecRunsAsTheStreamFunction :
    ((withOps [0x40]).resetLine = [] ∧ (withOps [0x40]).dph.busy = false ∧ (withOps [0x40]).ops = 0x40 :: [] ∧
      { withOps [0x40] with inbound := delivered (0x06 :: r1) ++ [RxAnswer.ioError] }.inbound =
        delivered (0x06 :: r1) ++ [RxAnswer.ioError]) ∧
    (decodeStream t0 (0x06 :: r1.take 11)).1 = .waiting ∧ (decodeStream t0 r1).1 = .failed .ackMissing false ∧
      (decodeStream t0 (0x06 :: r1)).1 = .frame r1 true := by decide

theorem witness_EncodedFramesAreReceived :
    (∃ addr cm pm, encBasicFrame t0 0x00 0x30 0x33 = encBasicFrame t0 addr cm pm) ∧
      (encBasicFrame t0 0x00 0x30 0x33).length ≤ t0Small.rxCap ∧ t0.ackAbsent = .desync ∧
      t0Realign.ackAbsent = .realign ∧ (withOps [0x40]).resetLine = [] ∧ (withOps [0x40]).dph.busy = false ∧
      (withOps [0x40]).ops = 0x40 :: [] ∧
      { withOps [0x40] with inbound := delivered (0x06 :: encBasicFrame t0 0x00 0x30 0x33) ++ [] }.inbound =
        delivered (0x06 :: encBasicFrame t0 0x00 0x30 0x33) ++ [] ∧
      { withOps [0x40] with inbound := delivered (encBasicFrame t0 0x00 0x30 0x33) ++ [] }.inbound =
        delivered (encBasicFrame t0 0x00 0x30 0x33) ++ [] :=
  ⟨⟨_, _, _, rfl⟩, by decide, rfl, rfl, rfl, rfl, rfl, rfl, rfl⟩

/-- The same for a frame that wraps an APDU. -/
theorem witness_EncodedFramesAreReceived_apdu :
    (∃ addr A, A.length ≤ 65532 ∧ encApduFrame t0 0x00 [0x90, 0x60, 0x00, 0x00, 0x00] = encApduFrame t0 addr A) ∧
      (encApduFrame t0 0x00 [0x90, 0x60, 0x00, 0x00, 0x00]).length ≤ t0.rxCap ∧
      { withOps [0x40] with
        inbound := delivered (0x06 :: encApduFrame t0 0x00 [0x90, 0x60, 0x00, 0x00, 0x00]) ++ [] }.inbound =
        delivered (0x06 :: encApduFrame t0 0x00 [0x90, 0x60, 0x00, 0x00, 0x00]) ++ [] :=
  ⟨⟨0x00, [0x90, 0x60, 0x00, 0x00, 0x00], by decide, rfl⟩, by decide, rfl⟩

theorem witness_DecodedFramesAreValid :
    decodeStream t0Small (0x06 :: r1) = (.frame r1 true, 13) ∧ decodeStream t0Realign r1 = (.frame r1 false, 12) := by decide

theorem witness_ValidFramesAreAccepted :
    validFrame t0Small r1 = true ∧ r1.length ≤ t0Small.rxCap ∧ validFrame t0Realign r11 = true ∧
      r11.length ≤ t0Realign.rxCap ∧ t0Realign.ackAbsent = .realign := by decide

theorem witness_FailedDecodesConsumeWhatTheRuleSays :
    decodeStream t0 r1 = (.failed .ackMissing false, 5) ∧
      decodeStream t0 (0x06 :: (r1.take 11 ++ [0x94])) = (.failed .checksumMismatch true, 13) ∧
      decodeStream t0Realign (r1.take 11 ++ [0x94]) = (.failed .checksumMismatch false, 12) := by decide

theorem witness_LaterBytesDoNotMatter : (decodeStream t0 (0x06 :: r1 ++ r2)).1 ≠ .waiting := by decide

theorem witness_RxLenReturnsTheCount :
    BlockInv quiet ∧ quiet.dph = .idle ∧ BlockInv { quiet with dph := .fail, derr := 0x05, dack := true } ∧
      BlockInv (holding r11) ∧ (holding r11).dph = .done := ⟨quiet_inv, rfl, fail_inv, holding_r11_inv, rfl⟩

theorem witness_RxRdReadsTheIndexedByte :
    quiet.dph ≠ .done ∧ (holding r1).dph = .done ∧ (holding r1).rxLen.toNat ≤ (12#24).toNat ∧
      (11#24).toNat < (holding r1).rxLen.toNat ∧ (holding r1).rxbuf.read (11#24).toNat = some 0x95 := by decide

theorem witness_ClsFieldsSplitsTheFrame : quiet.dph ≠ .done ∧ HoldsFrame (holding r11) r11 ∧ 9 ≤ r11.length :=
  ⟨by decide, holds_r11, by decide⟩

theorem witness_ClsTsuccComparesTheMessageType : quiet.dph ≠ .done ∧ HoldsFrame (holding r11) r11 ∧ 9 ≤ r11.length :=
  ⟨by decide, holds_r11, by decide⟩

theorem witness_ClsAsuccTestsTheStatusWord : quiet.dph ≠ .done ∧ HoldsFrame (holding r6) r6 ∧ 9 ≤ r6.length :=
  ⟨by decide, holds_r6, by decide⟩

/-- Too short, missed, found. -/
theorem witness_ClsAdescLooksUpTheStatusWord :
    quiet.dph ≠ .done ∧ (HoldsFrame (holding r11) r11 ∧ 9 ≤ r11.length ∧ r11.length < 11) ∧
      (HoldsFrame (holding r5) r5 ∧ 11 ≤ r5.length ∧
        (holding r5).cfg.apduTable.find (be16 (byteAt r5 (r5.length - 4)) (byteAt r5 (r5.length - 3))) = none) ∧
      (HoldsFrame (holding r6) r6 ∧ 11 ≤ r6.length ∧
        (holding r6).cfg.apduTable.find (be16 (byteAt r6 (r6.length - 4)) (byteAt r6 (r6.length - 3))) = some 3) :=
  ⟨by decide, ⟨holds_r11, by decide, by decide⟩, ⟨holds_r5, by decide, by decide⟩, ⟨holds_r6, by decide, by decide⟩⟩

/-- Too short, at the offset one past the last; the dispenser, the stacker and the capture box missed; all found. -/
theorem witness_ClsStatLooksUpTheThreeBytes :
    quiet.dph ≠ .done ∧ (HoldsFrame (holding r2) r2 ∧ ¬ t0.offSt2.toNat ≤ r2.length - 3) ∧
      (HoldsFrame (holding r9) r9 ∧ t0.offSt2.toNat ≤ r9.length - 3 ∧ t0.dispTable.find (byteAt r9 7) = none) ∧
      (HoldsFrame (holding r13) r13 ∧ t0.dispTable.find (byteAt r13 7) = some 0 ∧
        t0.stackTable.find (byteAt r13 8) = none) ∧
      (HoldsFrame (holding r12) r12 ∧ t0.stackTable.find (byteAt r12 8) = some 1 ∧
        t0.captTable.find (byteAt r12 9) = none) ∧
      (HoldsFrame (holding r1) r1 ∧ t0.dispTable.find (byteAt r1 7) = some 0 ∧
        t0.stackTable.find (byteAt r1 8) = some 1 ∧ t0.captTable.find (byteAt r1 9) = some 0) :=
  ⟨by decide, ⟨holds_r2, by decide⟩, ⟨⟨rfl, rfl, by decide⟩, by decide, by decide⟩,
    ⟨⟨rfl, rfl, by decide⟩, by decide, by decide⟩, ⟨⟨rfl, rfl, by decide⟩, by decide, by decide⟩,
    ⟨holds_r1, by decide, by decide, by decide⟩⟩

/-- Too short; missed; found, the second byte the last before END. -/
theorem witness_ClsErrLooksUpTheErrorCode :
    quiet.dph ≠ .done ∧ (HoldsFrame (holding r11) r11 ∧ ¬ t0.offE1.toNat ≤ r11.length - 3) ∧
      (HoldsFrame (holding r10) r10 ∧ t0.offE0.toNat ≤ r10.length - 3 ∧
        t0.errTable.find (be16 (byteAt r10 7) (byteAt r10 8)) = none) ∧
      (HoldsFrame (holding r2) r2 ∧ t0.offE0.toNat = r2.length - 3 ∧
        t0.errTable.find (be16 (byteAt r2 7) (byteAt r2 8)) = some 2) :=
  ⟨by decide, ⟨holds_r11, by decide⟩, ⟨⟨rfl, rfl, by decide⟩, by decide, by decide⟩, ⟨holds_r2, by decide, by decide⟩⟩

/-- A word of each kind: 0x91AF, 0x6A82, one that is in no row of the table; and a frame that is no transport success. -/
theorem witness_ClassificationTableHolds :
    (HoldsFrame (holding r6) r6 ∧ 11 ≤ r6.length ∧ byteAt r6 4 = t0.pmt ∧
      be16 (byteAt r6 (r6.length - 4)) (byteAt r6 (r6.length - 3)) = 0x91AF) ∧
    (HoldsFrame (holding r5) r5 ∧ 11 ≤ r5.length ∧ byteAt r5 4 = t0.pmt ∧
      be16 (byteAt r5 (r5.length - 4)) (byteAt r5 (r5.length - 3)) = 0x6A82) ∧
    (HoldsFrame (holding r1) r1 ∧ 11 ≤ r1.length ∧ byteAt r1 4 = t0.pmt ∧
      t0.apduTable.find (be16 (byteAt r1 (r1.length - 4)) (byteAt r1 (r1.length - 3))) = none) ∧
    (HoldsFrame (holding r2) r2 ∧ 11 ≤ r2.length ∧ byteAt r2 4 ≠ t0.pmt) :=
  ⟨⟨holds_r6, by decide, by decide, by decide⟩, ⟨holds_r5, by decide, by decide, by decide⟩,
    ⟨holds_r1, by decide, by decide, by decide⟩, ⟨holds_r2, by decide, by decide⟩⟩

theorem witness_RegRdReturnsEachRegister : 10 ≤ (10#8).toNat ∧ 10 ≤ (255#8).toNat := by decide

theorem witness_FaultsComeFromTheirOperations :
    exec .clsErr (holding r10) =
        .next { holding r10 with results := (holding r10).results ++ [.fault (.unknownErrorCode 0x3939)] } ∧
      (noReset (inHeader t0 [0xF2, 0x00, 0x00, 0x06] [.byte 0x50]) ∧
        (inHeader t0 [0xF2, 0x00, 0x00, 0x06] [.byte 0x50]).dph.busy = true ∧
        returned (step (inHeader t0 [0xF2, 0x00, 0x00, 0x06] [.byte 0x50])) = some (.fault .ackMissing)) :=
  ⟨rfl, by decide⟩

theorem witness_FaultingOperationsChangeNothing :
    exec (.rxRd 12) (holding r1) = .next { holding r1 with results := (holding r1).results ++ [.fault .badIndex] } ∧
      sends (.rxRd 12) = false ∧
      exec (.encBasic 0x00 0x30 0x33) { quiet with txAnswers := [.ioError 0] } =
        .next { quiet with outbound := [[]], results := [.fault .channelIOError] } := ⟨rfl, rfl, rfl⟩

theorem witness_EveryOperationReturnsOneResult :
    exec .bccRd quiet = .next { quiet with results := [.ok (.byte 0x00)] } ∧
      seen State.results (exec .dec quiet) = some [] := ⟨rfl, rfl⟩

theorem witness_OperationsKeepWhatTheyDoNotWrite :
    exec .rxLen quiet = .next { quiet with results := [.ok (.count 0)] } ∧ writesBcc .rxLen = false ∧
      writesCrc .rxLen = false ∧ sends .rxLen = false ∧ Instr.rxLen ≠ .dec := ⟨rfl, by decide⟩

theorem witness_NoStepChangesTheConfiguration : step quiet = .next quiet := rfl

theorem witness_OutboundStreamOnlyGrowsByFrames :
    seen State.outbound (step { withOps [0x30, 0x00, 0x30, 0x33] with txAnswers := [.ioError 2] }) =
      some [[0xF2, 0x00]] := by decide

/-- The frame stays; a `DEC` is issued; a reset happens. -/
theorem witness_ReceivedFrameStaysUntilDecOrReset :
    (holding r1).dph = .done ∧ step (holding r1) = .next (holding r1) ∧
      seen State.dph (step { holding r1 with ops := [0x40] }) = some .hdr ∧
      seen State.dph (step { holding r1 with resetLine := [true] }) = some .idle := ⟨rfl, rfl, by decide⟩

theorem witness_ExchangeIssuesDecOnlyAfterOk :
    sends (.encBasic 0x00 0x30 0x33) = true ∧
      seen lastOk (exec (.encBasic 0x00 0x30 0x33) { quiet with txAnswers := [.ok] }) = some true ∧
      seen lastOk (exec (.encBasic 0x00 0x30 0x33) { quiet with txAnswers := [.ioError 9] }) = some false := by decide

theorem witness_StepKeepsTheInvariants :
    BlockInv (inHeader t0 [0x06, 0xF2, 0x00, 0x00] [.byte 0x06]) ∧
      goesOn (step (inHeader t0 [0x06, 0xF2, 0x00, 0x00] [.byte 0x06])) = true ∧
      BlockInv (inTail (r1.take 11) 1 [.byte 0x95]) ∧ goesOn (step (inTail (r1.take 11) 1 [.byte 0x95])) = true :=
  ⟨inHeader_inv, by decide, inTail_inv, by decide⟩

theorem witness_StepGoesOnWhereTheInvariantsHold : BlockInv (holding r1) ∧ wholeOperation (holding r1) :=
  ⟨holding_r1_inv, by decide⟩

theorem witness_StepKeepsTheBufferCanonical :
    (inTail (r1.take 11) 1 [.byte 0x95]).rxbuf.wf ∧ goesOn (step (inTail (r1.take 11) 1 [.byte 0x95])) = true := by decide

theorem witness_CountsInQuietPhases :
    BlockInv quiet ∧ quiet.dph.busy = false ∧ quiet.dph ≠ .done ∧ BlockInv (holding r11) ∧ (holding r11).dph.busy = false ∧
      (holding r11).dph = .done := ⟨quiet_inv, rfl, by decide, holding_r11_inv, rfl, rfl⟩

end Sys2Proof.Tests
end

/-! SUPPORT. What a decoder step leaves alone (spec/43_frame_decode.md R144 to R156), and from it and the frame of each
operation that no step changes the configuration (spec/00_scope.md R5, spec/70_reset_and_hazards.md R234). -/

namespace Sys2Proof.Machine

/-! ## Postconditions of a result -/

/-- `P` holds of the next state, if the result answers one. -/
def IfNext (P : State → Prop) (r : Result) : Prop := ∀ t, r = .next t → P t

theorem ifNext_next {P : State → Prop} {s : State} (h : P s) : IfNext P (.next s) := by
  rintro _ ⟨⟩
  exact h

theorem ifNext_fault (P : State → Prop) (f : Fault) : IfNext P (.fault f) := nofun

theorem ifNext_refused (P : State → Prop) (r : Refusal) : IfNext P (.refused r) := nofun

theorem ifNext_ite {P : State → Prop} {c : Prop} [Decidable c] {x y : Result} (hx : IfNext P x) (hy : IfNext P y) :
    IfNext P (if c then x else y) := by
  split
  · exact hx
  · exact hy

theorem ifNext_withByte {P : State → Prop} {s : State} {i : Nat} {k : Byte → Result} (h : ∀ b, IfNext P (k b)) :
    IfNext P (withByte s i k) := fun t ht =>
  let ⟨b, _, hk⟩ := withByte_next ht
  h b t hk

theorem ifNext_storeByte {P : State → Prop} {b : Byte} {s : State} {k : State → Result}
    (h : IfNext P (k { s with rxbuf := s.rxbuf.write s.rxLen.toNat b, rxLen := s.rxLen + 1, dcnt := s.dcnt - 1 })) :
    IfNext P (storeByte b s k) := fun t ht => h t (storeByte_next ht).2

/-! ## What the decoder leaves alone -/

/-- The part of the state that belongs to no decode: the configuration, the two checksum registers, the host's program,
the outbound side of the channel and the reset line. -/
structure Surroundings where
  cfg : Cfg
  bcc : Byte
  crc : Word32
  ops : List Byte
  outbound : List (List Byte)
  txAnswers : List TxAnswer
  resetLine : List Bool

def State.surroundings (s : State) : Surroundings where
  cfg := s.cfg
  bcc := s.bcc
  crc := s.crc
  ops := s.ops
  outbound := s.outbound
  txAnswers := s.txAnswers
  resetLine := s.resetLine

/-- The answer leaves the surroundings of `s` as they are. -/
abbrev KeepsSurroundings (s : State) (r : Result) : Prop := IfNext (fun t => t.surroundings = s.surroundings) r

theorem decodeFail_keepsSurroundings (f : OpFault) (s : State) : KeepsSurroundings s (decodeFail f s) := ifNext_next rfl

theorem decodeDone_keepsSurroundings (s : State) : KeepsSurroundings s (decodeDone s) := ifNext_next rfl

theorem checkLength_keepsSurroundings (s : State) : KeepsSurroundings s (checkLength s) :=
  ifNext_withByte fun _ => ifNext_withByte fun _ =>
    ifNext_ite (decodeFail_keepsSurroundings _ _) <|
      ifNext_ite (decodeFail_keepsSurroundings _ _) <| ifNext_next rfl

theorem checkStart_keepsSurroundings (s : State) : KeepsSurroundings s (checkStart s) :=
  ifNext_withByte fun _ =>
    ifNext_ite (decodeFail_keepsSurroundings _ _) <|
      ifNext_ite (decodeFail_keepsSurroundings _ _) <| checkLength_keepsSurroundings s

/-- R145: the strip and the flag touch only the buffer, its count and `DACK`, so the checks that follow start from the same
surroundings. -/
theorem evalHeader_keepsSurroundings (s : State) : KeepsSurroundings s (evalHeader s) :=
  ifNext_withByte fun _ =>
    ifNext_ite
      (ifNext_withByte fun _ => ifNext_withByte fun _ => ifNext_withByte fun _ => ifNext_withByte fun _ =>
        checkStart_keepsSurroundings { s with rxbuf := _, rxLen := 4, dack := true })
      (checkStart_keepsSurroundings { s with dack := false })

theorem checkChecksum_keepsSurroundings (s : State) : KeepsSurroundings s (checkChecksum s) := by
  unfold checkChecksum
  split
  · exact ifNext_withByte fun _ =>
      ifNext_ite (decodeFail_keepsSurroundings _ _) (decodeDone_keepsSurroundings s)
  · exact ifNext_fault _ _

theorem validateFrame_keepsSurroundings (s : State) : KeepsSurroundings s (validateFrame s) :=
  ifNext_withByte fun _ => ifNext_ite (decodeFail_keepsSurroundings _ _) (checkChecksum_keepsSurroundings s)

theorem afterByte_keepsSurroundings (s : State) : KeepsSurroundings s (afterByte s) :=
  ifNext_ite (ifNext_ite (evalHeader_keepsSurroundings s) (validateFrame_keepsSurroundings s)) (ifNext_next rfl)

/-- R144, R150, R154, R155: whatever the channel answers, a decoder step leaves the surroundings as they are. -/
theorem decoderStep_keepsSurroundings (s : State) : KeepsSurroundings s (decoderStep s) := by
  unfold decoderStep
  split
  case h_1 => exact ifNext_next rfl
  case h_2 => exact ifNext_next rfl
  case h_3 rest _ => exact decodeFail_keepsSurroundings _ { s with inbound := rest }
  case h_4 b rest _ =>
    exact ifNext_storeByte <|
      afterByte_keepsSurroundings { s with inbound := rest, rxPos := _, rxbuf := _, rxLen := _, dcnt := _ }

/-! ## The configuration -/

/-- The answer leaves the configuration of `s` as it is. -/
abbrev KeepsCfg (s : State) (r : Result) : Prop := IfNext (fun t => t.cfg = s.cfg) r

theorem KeepsSurroundings.keepsCfg {s : State} {r : Result} (h : KeepsSurroundings s r) : KeepsCfg s r :=
  fun t ht => congrArg Surroundings.cfg (h t ht)

theorem OnlyDelivers.keepsCfg {s : State} {r : Result} (h : OnlyDelivers s r) : KeepsCfg s r := by
  intro t ht
  obtain ⟨resp, rfl⟩ := h.next ht
  rfl

theorem execEncApdu_keepsCfg (addr : Byte) (apdu : List Byte) (s : State) : KeepsCfg s (exec (.encApdu addr apdu) s) :=
  ifNext_ite (raise_onlyDelivers _ s).keepsCfg (ifNext_next rfl)

/-- R195: no operation writes the configuration. -/
theorem exec_keepsCfg (i : Instr) (s : State) : KeepsCfg s (exec i s) := by
  cases i with
  | bccClr | bccUpd | crcInit | crcUpd | encBasic | dec => exact ifNext_next rfl
  | encApdu addr apdu => exact execEncApdu_keepsCfg addr apdu s
  | bccRd | crcRd | crcBrev | rxLen | rxRd | clsTsucc | clsAsucc | clsAdesc | clsStat | clsErr | clsFields | regRd =>
    exact OnlyDelivers.keepsCfg (exec_onlyDelivers rfl rfl rfl (by nofun) s)

/-- The host takes bytes off its program and runs at most one operation. -/
theorem hostStep_keepsCfg (s : State) : KeepsCfg s (hostStep s) := by
  unfold hostStep
  split
  case h_1 i rest _ => exact exec_keepsCfg i { s with ops := rest }
  case h_2 rest _ => exact (raise_onlyDelivers .illegalOp { s with ops := rest }).keepsCfg
  case h_3 => exact ifNext_refused _ _
  case h_4 => exact ifNext_next rfl

theorem blockStep_keepsCfg (s : State) : KeepsCfg s (blockStep s) :=
  ifNext_ite (decoderStep_keepsSurroundings s).keepsCfg (hostStep_keepsCfg s)

theorem step_keepsCfg (s : State) : KeepsCfg s (step s) := by
  rcases step_cases s with ⟨line, _, hreset⟩ | ⟨_, hblock⟩
  · rw [hreset]
    exact ifNext_next rfl
  · rw [hblock]
    exact blockStep_keepsCfg (tick s)

/-- Settles O52: each agent's step, and a reset event, keeps the configuration. -/
theorem noStepChangesTheConfiguration : Obligations.NoStepChangesTheConfiguration := step_keepsCfg

end Sys2Proof.Machine

/-! SUPPORT. What each operation can change (spec/10_state.md R20), said once. From it the frame of every operation, and with
the decoder's steps the canonical form of the receive buffer (R24). -/

namespace Sys2Proof.Machine

/-! ## The effect of an operation -/

/-- What an operation can leave of a state, by R20's columns: a result and nothing else, a checksum register, the outbound
side of the channel, or, for `DEC`, a decoder at its start (R143). -/
inductive ExecEffect (i : Instr) (s : State) : State → Prop where
  | result (r : Response) : ExecEffect i s (deliver r s)
  | bcc (h : writesBcc i = true) (b : Byte) (r : Response) : ExecEffect i s (deliver r { s with bcc := b })
  | crc (h : writesCrc i = true) (c : Word32) (r : Response) : ExecEffect i s (deliver r { s with crc := c })
  | frame (h : sends i = true) (out : List (List Byte)) (answers : List TxAnswer) (r : Response) :
      ExecEffect i s (deliver r { s with outbound := out, txAnswers := answers })
  | start (h : i = .dec) :
      ExecEffect i s { s with dph := .hdr, dcnt := 5, rxLen := 0, dack := false, derr := 0x00, rxbuf := [] }

theorem sendFrame_effect {i : Instr} (h : sends i = true) (frame : List Byte) (s : State) :
    IfNext (ExecEffect i s) (sendFrame frame s) := ifNext_next (.frame h _ _ _)

/-- Every operation has one of these effects. -/
theorem exec_effect (i : Instr) (s : State) : IfNext (ExecEffect i s) (exec i s) := by
  cases i with
  | bccClr | bccUpd => exact ifNext_next (.bcc rfl _ _)
  | crcInit | crcUpd => exact ifNext_next (.crc rfl _ _)
  | encBasic => exact sendFrame_effect rfl _ s
  | encApdu => exact ifNext_ite (ifNext_next (.result _)) (sendFrame_effect rfl _ s)
  | dec => exact ifNext_next (.start rfl)
  | bccRd | crcRd | crcBrev | rxLen | rxRd | clsTsucc | clsAsucc | clsAdesc | clsStat | clsErr | clsFields | regRd =>
    intro t ht
    obtain ⟨r, rfl⟩ := (exec_onlyDelivers rfl rfl rfl (by nofun) s).next ht
    exact .result r

/-- Settles O51: each effect names the fields it changes and the operations that have it. -/
theorem operationsKeepWhatTheyDoNotWrite : Obligations.OperationsKeepWhatTheyDoNotWrite := by
  intro i s t ht
  cases exec_effect i s t ht with
  | result => simp
  | bcc h | crc h | frame h => simp [h]
  | start h => simp [h, sends]

/-! ## The canonical form of the receive buffer -/

/-- The next state, if the result answers one, has a canonical buffer. -/
abbrev CanonicalNext (r : Result) : Prop := IfNext (fun t => t.rxbuf.wf) r

theorem decodeFail_canonical (f : OpFault) (s : State) : CanonicalNext (decodeFail f s) := ifNext_next Memory.nil_wf

theorem checkLength_canonical {s : State} (h : s.rxbuf.wf) : CanonicalNext (checkLength s) :=
  ifNext_withByte fun _ => ifNext_withByte fun _ =>
    ifNext_ite (decodeFail_canonical _ _) <| ifNext_ite (decodeFail_canonical _ _) <| ifNext_next h

theorem checkStart_canonical {s : State} (h : s.rxbuf.wf) : CanonicalNext (checkStart s) :=
  ifNext_withByte fun _ =>
    ifNext_ite (decodeFail_canonical _ _) <| ifNext_ite (decodeFail_canonical _ _) <| checkLength_canonical h

/-- R145: the strip writes four indices and drops those above. -/
theorem stripAck_canonical {s : State} (h : s.rxbuf.wf) : CanonicalNext (stripAck s checkStart) :=
  ifNext_withByte fun _ => ifNext_withByte fun _ => ifNext_withByte fun _ => ifNext_withByte fun _ =>
    checkStart_canonical <|
      Memory.truncate_wf (Memory.write_wf (Memory.write_wf (Memory.write_wf (Memory.write_wf h _ _) _ _) _ _) _ _) _

theorem evalHeader_canonical {s : State} (h : s.rxbuf.wf) : CanonicalNext (evalHeader s) :=
  ifNext_withByte fun _ => ifNext_ite (stripAck_canonical h) (checkStart_canonical h)

theorem checkChecksum_canonical {s : State} (h : s.rxbuf.wf) : CanonicalNext (checkChecksum s) := by
  unfold checkChecksum
  split
  · exact ifNext_withByte fun _ => ifNext_ite (decodeFail_canonical _ _) (ifNext_next h)
  · exact ifNext_fault _ _

theorem afterByte_canonical {s : State} (h : s.rxbuf.wf) : CanonicalNext (afterByte s) :=
  ifNext_ite
    (ifNext_ite (evalHeader_canonical h) <|
      ifNext_withByte fun _ => ifNext_ite (decodeFail_canonical _ _) (checkChecksum_canonical h))
    (ifNext_next h)

theorem decoderStep_canonical {s : State} (h : s.rxbuf.wf) : CanonicalNext (decoderStep s) := by
  unfold decoderStep
  split
  case h_1 | h_2 => exact ifNext_next h
  case h_3 => exact decodeFail_canonical _ _
  case h_4 => exact ifNext_storeByte (afterByte_canonical (Memory.write_wf h _ _))

theorem exec_canonical (i : Instr) {s : State} (h : s.rxbuf.wf) : CanonicalNext (exec i s) := by
  intro t ht
  cases exec_effect i s t ht with
  | result | bcc | crc | frame => exact h
  | start => exact Memory.nil_wf

theorem hostStep_canonical {s : State} (h : s.rxbuf.wf) : CanonicalNext (hostStep s) := by
  unfold hostStep
  split
  case h_1 i rest _ => exact exec_canonical i (s := { s with ops := rest }) h
  case h_2 | h_4 => exact ifNext_next h
  case h_3 => exact ifNext_refused _ _

/-- A reset event empties the buffer, and the step of either agent keeps the form. -/
theorem step_canonical {s : State} (h : s.rxbuf.wf) : CanonicalNext (step s) := by
  rcases step_cases s with ⟨line, _, hreset⟩ | ⟨_, hblock⟩
  · rw [hreset]
    exact ifNext_next Memory.nil_wf
  · rw [hblock]
    exact ifNext_ite (decoderStep_canonical h) (hostStep_canonical h)

/-- Settles O59. -/
theorem stepKeepsTheBufferCanonical : Obligations.StepKeepsTheBufferCanonical := fun _ t h => step_canonical h t

end Sys2Proof.Machine

/-! SUPPORT. The invariants of R37 (spec/10_state.md): what they rest on, what they say in each phase, and that every step
keeps them and meets no index of the buffer without a value. -/

namespace Sys2Proof.Machine

/-! ## What the invariants rest on -/

/-- The part of the state that the invariants of R37 speak of. -/
structure DecodeView where
  cfg : Cfg
  rxbuf : Memory
  rxLen : Count
  dph : Phase
  dcnt : Count
  dack : Bool
  derr : Byte

def State.decodeView (s : State) : DecodeView where
  cfg := s.cfg
  rxbuf := s.rxbuf
  rxLen := s.rxLen
  dph := s.dph
  dcnt := s.dcnt
  dack := s.dack
  derr := s.derr

theorem phaseOk_idle {s : State} (h : s.dph = .idle) : PhaseOk s ↔ IdleOk s := by simp only [PhaseOk, h]
theorem phaseOk_hdr {s : State} (h : s.dph = .hdr) : PhaseOk s ↔ HdrOk s := by simp only [PhaseOk, h]
theorem phaseOk_tail {s : State} (h : s.dph = .tail) : PhaseOk s ↔ TailOk s := by simp only [PhaseOk, h]
theorem phaseOk_done {s : State} (h : s.dph = .done) : PhaseOk s ↔ DoneOk s := by simp only [PhaseOk, h]
theorem phaseOk_fail {s : State} (h : s.dph = .fail) : PhaseOk s ↔ FailOk s := by simp only [PhaseOk, h]

/-- The invariants depend on nothing but this part. -/
theorem BlockInv.of_decodeView {s t : State} (inv : BlockInv s) (h : t.decodeView = s.decodeView) : BlockInv t := by
  obtain ⟨_, _, _, _, _, dph⟩ := s
  obtain ⟨⟩ := t
  cases h
  obtain ⟨⟨exact, length, fits⟩, phase⟩ := inv
  refine ⟨⟨exact, length, fits⟩, ?_⟩
  cases dph with
  | idle => exact ⟨phase.rxLen, phase.dcnt, phase.dack, phase.derr⟩
  | hdr => exact ⟨phase.sum, phase.low, phase.high, phase.dack, phase.derr⟩
  | tail => exact ⟨phase.start, phase.header, phase.low, phase.derr, phase.long, phase.room, phase.sum⟩
  | done => exact ⟨phase.dcnt, phase.derr, phase.frame⟩
  | fail => exact ⟨phase.rxLen, phase.dcnt, phase.derr⟩

/-! ## The buffer -/

theorem received_ofBytes {s : State} {F : List Byte} (hb : s.rxbuf = Memory.ofBytes F) : s.received = F := by
  rw [State.received, hb, Memory.snd_ofBytes]

theorem bufferOk_ofBytes {s : State} {F : List Byte} (hb : s.rxbuf = Memory.ofBytes F) (hn : s.rxLen.toNat = F.length)
    (hfits : F.length ≤ s.cfg.rxCap) : BufferOk s := by
  have hF := received_ofBytes hb
  exact ⟨by rw [hF, hb], by rw [hF, hn], by omega⟩

theorem bufferOk_empty {s : State} (hb : s.rxbuf = []) (hn : s.rxLen = 0) : BufferOk s :=
  bufferOk_ofBytes (F := []) hb (by rw [hn]; rfl) (Nat.zero_le _)

/-! ## A frame is held -/

theorem validFrame_iff (c : Cfg) (F : List Byte) :
    validFrame c F = true ↔ 3 ≤ frameLength F ∧ F.length = frameLength F + 6 ∧ byteAt F 0 = c.start ∧
      byteAt F (F.length - 2) = c.endMark ∧ byteAt F (F.length - 1) = bcc (F.take (F.length - 1)) := by
  simp only [validFrame, Bool.and_eq_true, decide_eq_true_eq, beq_iff_eq, and_assoc]

theorem validFrame_length {c : Cfg} {F : List Byte} (h : validFrame c F = true) : 9 ≤ F.length := by
  obtain ⟨hlong, hlength, _⟩ := (validFrame_iff c F).mp h
  omega

theorem BlockInv.doneOk {s : State} (inv : BlockInv s) (h : s.dph = .done) : DoneOk s := (phaseOk_done h).mp inv.phase

theorem BlockInv.holdsFrame {s : State} (inv : BlockInv s) (h : s.dph = .done) : HoldsFrame s s.received :=
  ⟨h, inv.buffer.exact, inv.buffer.length.symm⟩

/-! ## The quiet phases -/

/-- Settles O56: the buffer is empty, and the fields are those of `IDLE`. -/
theorem resetStateSatisfiesTheInvariants : Obligations.ResetStateSatisfiesTheInvariants :=
  ⟨bufferOk_empty rfl rfl, ⟨rfl, rfl, rfl, rfl⟩⟩

theorem resetEvent_inv (s : State) : BlockInv (resetEvent s) := ⟨bufferOk_empty rfl rfl, ⟨rfl, rfl, rfl, rfl⟩⟩

theorem BlockInv.dcnt_quiet {s : State} (inv : BlockInv s) (h : s.dph.busy = false) : s.dcnt = 0 := by
  have phase := inv.phase
  cases hd : s.dph with
  | idle => exact ((phaseOk_idle hd).mp phase).dcnt
  | done => exact ((phaseOk_done hd).mp phase).dcnt
  | fail => exact ((phaseOk_fail hd).mp phase).dcnt
  | hdr | tail => simp [hd, Phase.busy] at h

theorem BlockInv.rxLen_quiet {s : State} (inv : BlockInv s) (h : s.dph.busy = false) (hdone : s.dph ≠ .done) :
    s.rxLen = 0 := by
  have phase := inv.phase
  cases hd : s.dph with
  | idle => exact ((phaseOk_idle hd).mp phase).rxLen
  | fail => exact ((phaseOk_fail hd).mp phase).rxLen
  | done => exact absurd hd hdone
  | hdr | tail => simp [hd, Phase.busy] at h

theorem execRegRd_dcnt (s : State) :
    exec (.regRd 4) s = .next { s with results := s.results ++ [.ok (.word (s.dcnt.setWidth 32))] } := rfl

/-- Settles O60: what R37 says of `IDLE`, `DONE` and `FAIL`, and a valid frame has at least 9 bytes. -/
theorem countsInQuietPhases : Obligations.CountsInQuietPhases := by
  intro s inv hq
  have hdcnt := inv.dcnt_quiet hq
  refine ⟨hdcnt, ?_, fun hdone => ?_, inv.rxLen_quiet hq⟩
  · rw [execRegRd_dcnt, hdcnt]
    rfl
  · have hframe := (inv.doneOk hdone).frame
    exact ⟨inv.buffer.length ▸ validFrame_length hframe, inv.holdsFrame hdone, hframe⟩

/-! ## A next state with a property -/

/-- The result answers a next state, and `P` holds of it. -/
def GoesTo (P : State → Prop) (r : Result) : Prop := ∃ t, r = .next t ∧ P t

theorem goesTo_next {P : State → Prop} {s : State} (h : P s) : GoesTo P (.next s) := ⟨s, rfl, h⟩

theorem goesTo_ite {P : State → Prop} {c : Prop} [Decidable c] {x y : Result} (hx : c → GoesTo P x)
    (hy : ¬ c → GoesTo P y) : GoesTo P (if c then x else y) := by
  split
  · exact hx ‹_›
  · exact hy ‹_›

theorem GoesTo.ifNext {P : State → Prop} {r : Result} (h : GoesTo P r) : IfNext P r := by
  obtain ⟨t, rfl, ht⟩ := h
  exact ifNext_next ht

theorem GoesTo.goesOn {P : State → Prop} {r : Result} (h : GoesTo P r) : goesOn r = true := by
  obtain ⟨t, rfl, _⟩ := h
  rfl

/-! ## The end of a decode -/

/-- R153: a failed decode leaves what R37 says of `FAIL`. -/
theorem decodeFail_goesToInv (f : OpFault) (s : State) : GoesTo BlockInv (decodeFail f s) :=
  goesTo_next ⟨bufferOk_empty rfl rfl, ⟨rfl, rfl, f.code_ne_zero⟩⟩

/-- R151, R152: the bytes of a whole frame are refused, or they are a valid frame and the decode ends in `DONE`. -/
theorem validateFrame_goesToInv {s : State} (buffer : BufferOk s) (hcnt : s.dcnt = 0) (herr : s.derr = 0x00)
    (hlong : 3 ≤ frameLength s.received) (hlength : s.received.length = frameLength s.received + 6)
    (hstart : byteAt s.received 0 = s.cfg.start) : GoesTo BlockInv (validateFrame s) := by
  rw [validateFrame_ofBytes buffer.exact buffer.length.symm (by omega)]
  refine goesTo_ite (fun _ => decodeFail_goesToInv _ s) fun hend => ?_
  refine goesTo_ite (fun _ => decodeFail_goesToInv _ s) fun hbcc => ?_
  have hvalid : validFrame s.cfg s.received = true :=
    (validFrame_iff _ _).mpr ⟨hlong, hlength, hstart, not_not.mp hend, (not_not.mp hbcc).symm⟩
  exact goesTo_next ⟨⟨buffer.exact, buffer.length, buffer.fits⟩, ⟨hcnt, herr, hvalid⟩⟩

/-! ## The header -/

theorem count17_toNat {n : Nat} (h : n < 131072) : (count17 n).toNat = n := by
  rw [count17, BitVec.toNat_ofNat]
  omega

/-- R146 to R149: a corrected header of 4 or 5 bytes is refused, or the tail begins as R37 says. -/
theorem checkStart_goesToInv {s : State} (buffer : BufferOk s) (herr : s.derr = 0x00) (hmin : 4 ≤ s.rxLen.toNat)
    (hmax : s.rxLen.toNat ≤ 5) : GoesTo BlockInv (checkStart s) := by
  have hlength := buffer.length
  rw [checkStart_ofBytes buffer.exact (by omega)]
  refine goesTo_ite (fun _ => decodeFail_goesToInv _ s) fun hstart => ?_
  refine goesTo_ite (fun _ => decodeFail_goesToInv _ s) fun _ => ?_
  refine goesTo_ite (fun _ => decodeFail_goesToInv _ s) fun hlong => ?_
  refine goesTo_ite (fun _ => decodeFail_goesToInv _ s) fun hroom => ?_
  have hcap := rxCap_bounds s.cfg
  have hcnt : (count17 (frameLength s.received + 6 - s.rxLen.toNat)).toNat
      = frameLength s.received + 6 - s.rxLen.toNat := count17_toNat (by omega)
  refine goesTo_next ⟨⟨buffer.exact, hlength, buffer.fits⟩, ?_⟩
  refine (phaseOk_tail rfl).mpr
    { start := not_not.mp hstart, header := hmin, low := ?_, derr := herr, long := not_lt.mp hlong,
      room := not_lt.mp hroom, sum := ?_ }
  · show 1 ≤ (count17 (frameLength s.received + 6 - s.rxLen.toNat)).toNat
    omega
  · show s.rxLen.toNat + (count17 (frameLength s.received + 6 - s.rxLen.toNat)).toNat = frameLength s.received + 6
    omega

/-- R145: with the acknowledgment byte stripped or not, the corrected header is checked. -/
theorem evalHeader_goesToInv {s : State} (buffer : BufferOk s) (herr : s.derr = 0x00) (hlen : s.rxLen.toNat = 5) :
    GoesTo BlockInv (evalHeader s) := by
  have hcap := rxCap_bounds s.cfg
  obtain ⟨h0, h1, h2, h3, h4, hH⟩ : ∃ h0 h1 h2 h3 h4, s.received = [h0, h1, h2, h3, h4] := by
    match s.received, buffer.length.trans hlen with
    | [h0, h1, h2, h3, h4], _ => exact ⟨h0, h1, h2, h3, h4, rfl⟩
  rw [evalHeader_ofBytes (hH ▸ buffer.exact)]
  refine goesTo_ite (fun _ => ?_) fun _ => ?_
  · exact checkStart_goesToInv (bufferOk_ofBytes rfl rfl (by simp; omega)) herr (by simp) (by simp)
  · exact checkStart_goesToInv ⟨buffer.exact, buffer.length, buffer.fits⟩ herr (by simp [hlen]) (by simp [hlen])

/-! ## A byte is stored -/

/-- The state in which a byte is stored (R144, R150). -/
def State.store (b : Byte) (s : State) : State :=
  { s with rxbuf := s.rxbuf.write s.rxLen.toNat b, rxLen := s.rxLen + 1, dcnt := s.dcnt - 1 }

section
variable {s : State} (b : Byte)

theorem store_rxbuf_ofBytes {F : List Byte} (hb : s.rxbuf = Memory.ofBytes F) (hn : s.rxLen.toNat = F.length) :
    (s.store b).rxbuf = Memory.ofBytes (F ++ [b]) := by
  show s.rxbuf.write s.rxLen.toNat b = _
  rw [hb, hn, Memory.write_ofBytes]

theorem BufferOk.received_store (buffer : BufferOk s) : (s.store b).received = s.received ++ [b] :=
  received_ofBytes (store_rxbuf_ofBytes b buffer.exact buffer.length.symm)

/-- R23: the count cannot wrap where there is room. -/
theorem store_rxLen_toNat (h : s.rxLen.toNat < s.cfg.rxCap) : (s.store b).rxLen.toNat = s.rxLen.toNat + 1 := by
  have hcap := rxCap_bounds s.cfg
  show (s.rxLen + 1).toNat = _
  bv_omega

theorem store_dcnt_toNat (h : 1 ≤ s.dcnt.toNat) : (s.store b).dcnt.toNat = s.dcnt.toNat - 1 := by
  show (s.dcnt - 1).toNat = _
  bv_omega

theorem BufferOk.store (buffer : BufferOk s) (h : s.rxLen.toNat < s.cfg.rxCap) : BufferOk (s.store b) := by
  have hlength := buffer.length
  refine bufferOk_ofBytes (store_rxbuf_ofBytes b buffer.exact hlength.symm) ?_ ?_
  · rw [store_rxLen_toNat b h, List.length_append, hlength]
    rfl
  · show (s.received ++ [b]).length ≤ s.cfg.rxCap
    rw [List.length_append, hlength]
    exact h

end

/-! ## A step of the decoder -/

/-- The state in which the channel's byte is taken (R52). -/
def State.consume (more : List RxAnswer) (s : State) : State := { s with inbound := more, rxPos := s.rxPos + 1 }

theorem decoderStep_store {s : State} {b : Byte} {more : List RxAnswer} (hin : s.inbound = .byte b :: more)
    (hroom : s.rxLen.toNat < s.cfg.rxCap) : decoderStep s = afterByte ((s.consume more).store b) :=
  (decoderStep_byte hin).trans (storeByte_fits (s := s.consume more) hroom afterByte)

theorem HdrOk.room_next {s : State} (hdr : HdrOk s) : s.rxLen.toNat < s.cfg.rxCap := by
  have hsum := hdr.sum
  have hlow := hdr.low
  have hcap := rxCap_bounds s.cfg
  omega

theorem TailOk.room_next {s : State} (tail : TailOk s) : s.rxLen.toNat < s.cfg.rxCap := by
  have hsum := tail.sum
  have hlow := tail.low
  have hroom := tail.room
  omega

/-- R144: one more header byte, and after the fifth the evaluation of the header. -/
theorem afterByte_hdr_goesToInv {s : State} (b : Byte) (buffer : BufferOk s) (hd : s.dph = .hdr) (hdr : HdrOk s) :
    GoesTo BlockInv (afterByte (s.store b)) := by
  have hlen := store_rxLen_toNat b hdr.room_next
  have hbuffer := buffer.store b hdr.room_next
  obtain ⟨hsum, hlow, hhigh, hack, herr⟩ := hdr
  have hcnt := store_dcnt_toNat b hlow
  refine goesTo_ite (fun hzero => ?_) fun hmore => ?_
  · have hlast : s.dcnt.toNat - 1 = 0 := hcnt.symm.trans (congrArg BitVec.toNat hzero)
    rw [if_pos (show (s.store b).dph = .hdr from hd)]
    exact evalHeader_goesToInv hbuffer herr (by omega)
  · have hpos : (s.store b).dcnt.toNat ≠ 0 := fun h => hmore (BitVec.eq_of_toNat_eq h)
    exact goesTo_next ⟨hbuffer, (phaseOk_hdr (s := s.store b) hd).mpr ⟨by omega, by omega, by omega, hack, herr⟩⟩

/-- R150: one more byte of the tail, and after the last the validation of the frame. -/
theorem afterByte_tail_goesToInv {s : State} (b : Byte) (buffer : BufferOk s) (hd : s.dph = .tail) (tail : TailOk s) :
    GoesTo BlockInv (afterByte (s.store b)) := by
  have hlength := buffer.length
  have hlen := store_rxLen_toNat b tail.room_next
  have hbuffer := buffer.store b tail.room_next
  obtain ⟨hstart, hheader, hlow, herr, hlong, hroom, hsum⟩ := tail
  have hcnt := store_dcnt_toNat b hlow
  have hstart' : byteAt (s.store b).received 0 = s.cfg.start := by
    rw [buffer.received_store, byteAt_append_left (by omega), hstart]
  have hframe : frameLength (s.store b).received = frameLength s.received := by
    rw [buffer.received_store, frameLength_append _ (by omega)]
  refine goesTo_ite (fun hzero => ?_) fun hmore => ?_
  · have hlast : s.dcnt.toNat - 1 = 0 := hcnt.symm.trans (congrArg BitVec.toNat hzero)
    have hwhole := hbuffer.length
    rw [if_neg (show (s.store b).dph ≠ .hdr by simp [State.store, hd])]
    exact validateFrame_goesToInv hbuffer hzero herr (by omega) (by omega) hstart'
  · have hpos : (s.store b).dcnt.toNat ≠ 0 := fun h => hmore (BitVec.eq_of_toNat_eq h)
    have hroom' : frameLength (s.store b).received + 6 ≤ (s.store b).cfg.rxCap := by rw [hframe]; exact hroom
    exact goesTo_next ⟨hbuffer, (phaseOk_tail (s := s.store b) hd).mpr
      ⟨hstart', by omega, by omega, herr, by omega, hroom', by omega⟩⟩

theorem storeByte_goesToInv {s : State} (b : Byte) (inv : BlockInv s) (h : s.dph.busy = true) :
    GoesTo BlockInv (storeByte b s afterByte) := by
  cases hd : s.dph with
  | hdr =>
    have hdr := (phaseOk_hdr hd).mp inv.phase
    rw [storeByte_fits hdr.room_next]
    exact afterByte_hdr_goesToInv b inv.buffer hd hdr
  | tail =>
    have tail := (phaseOk_tail hd).mp inv.phase
    rw [storeByte_fits tail.room_next]
    exact afterByte_tail_goesToInv b inv.buffer hd tail
  | idle | done | fail => simp [hd, Phase.busy] at h

/-- In a busy phase the decoder goes on, whatever the channel answers, and keeps the invariants. -/
theorem decoderStep_goesToInv {s : State} (inv : BlockInv s) (h : s.dph.busy = true) :
    GoesTo BlockInv (decoderStep s) := by
  unfold decoderStep
  split
  case h_1 => exact goesTo_next inv
  case h_2 => exact goesTo_next (inv.of_decodeView rfl)
  case h_3 => exact decodeFail_goesToInv _ _
  case h_4 b rest _ =>
    exact storeByte_goesToInv (s := s.consume rest) b (inv.of_decodeView rfl) h

/-! ## The step of the host -/

theorem exec_keepsInv (i : Instr) {s : State} (inv : BlockInv s) : IfNext BlockInv (exec i s) := by
  intro t ht
  cases exec_effect i s t ht with
  | result | bcc | crc | frame => exact inv.of_decodeView rfl
  | start => exact ⟨bufferOk_empty rfl rfl, ⟨rfl, by simp, by simp, rfl, rfl⟩⟩

theorem hostStep_keepsInv {s : State} (inv : BlockInv s) : IfNext BlockInv (hostStep s) := by
  unfold hostStep
  split
  case h_1 i rest _ => exact exec_keepsInv i (s := { s with ops := rest }) (inv.of_decodeView rfl)
  case h_2 => exact ifNext_next (inv.of_decodeView rfl)
  case h_3 => exact ifNext_refused _ _
  case h_4 => exact ifNext_next inv

theorem blockStep_keepsInv {s : State} (inv : BlockInv s) : IfNext BlockInv (blockStep s) := by
  cases h : s.dph.busy with
  | true => exact blockStep_busy h ▸ (decoderStep_goesToInv inv h).ifNext
  | false => exact blockStep_quiet h ▸ hostStep_keepsInv inv

theorem step_keepsInv {s : State} (inv : BlockInv s) : IfNext BlockInv (step s) := by
  rcases step_cases s with ⟨line, _, hreset⟩ | ⟨_, hblock⟩
  · rw [hreset]
    exact ifNext_next (resetEvent_inv _)
  · rw [hblock]
    exact blockStep_keepsInv (inv.of_decodeView rfl)

/-- Settles O57: a reset event restores the invariants, and the step of either agent keeps them. -/
theorem stepKeepsTheInvariants : Obligations.StepKeepsTheInvariants := fun _ t inv => step_keepsInv inv t

/-! ## No step stops -/

theorem goesOn_ite {c : Prop} [Decidable c] {x y : Result} (hx : c → goesOn x = true) (hy : ¬ c → goesOn y = true) :
    goesOn (if c then x else y) = true := by
  split
  · exact hx ‹_›
  · exact hy ‹_›

theorem goesOn_withEntry {w : Nat} {s : State} {t : Table w} {code : BitVec w} {miss : OpFault} {k : Nat → Result}
    (h : ∀ i, goesOn (k i) = true) : goesOn (withEntry s t code miss k) = true := by
  unfold withEntry
  split
  · exact h _
  · rfl

/-- R170: without a frame the fault `NoFrame` is returned; with one it is known what the buffer holds. -/
theorem goesOn_withFrame {s : State} {k : Result} (inv : BlockInv s)
    (h : HoldsFrame s s.received → 9 ≤ s.rxLen.toNat → goesOn k = true) : goesOn (withFrame s k) = true :=
  goesOn_ite
    (fun hdone => h (inv.holdsFrame hdone) (inv.buffer.length ▸ validFrame_length (inv.doneOk hdone).frame))
    fun _ => rfl

section
variable {s : State} {F : List Byte} (hF : HoldsFrame s F)
include hF

/-- R24: every index below `RXLEN` of a received frame holds a value. -/
theorem HoldsFrame.goesOn_withByte {i : Nat} {k : Byte → Result} (hi : i < s.rxLen.toNat)
    (hk : ∀ b, goesOn (k b) = true) : goesOn (withByte s i k) = true := by
  rw [withByte_ofBytes hF.buffer (hF.length ▸ hi)]
  exact hk _

theorem HoldsFrame.goesOn_withBe16 {i j : Nat} {k : Word16 → Result} (hi : i < s.rxLen.toNat) (hj : j < s.rxLen.toNat)
    (hk : ∀ v, goesOn (k v) = true) : goesOn (withBe16 s i j k) = true :=
  hF.goesOn_withByte hi fun _ => hF.goesOn_withByte hj fun _ => hk _

theorem HoldsFrame.goesOn_withStatusWord {k : Word16 → Result} (hk : ∀ v, goesOn (k v) = true) :
    goesOn (withStatusWord s k) = true :=
  goesOn_ite (fun _ => rfl) fun hshort => hF.goesOn_withBe16 (by omega) (by omega) hk

end

theorem offset_lt_of_not_short {s : State} {off : Byte} (h9 : 9 ≤ s.rxLen.toNat) (h : ¬ offsetShort s off = true) :
    off.toNat < s.rxLen.toNat := by
  simp only [offsetShort, decide_eq_true_eq] at h
  omega

/-- R24, R37: no operation reads an index of the buffer that holds no value. -/
theorem exec_goesOn (i : Instr) {s : State} (inv : BlockInv s) : goesOn (exec i s) = true := by
  cases i with
  | bccClr | bccUpd | bccRd | crcInit | crcUpd | crcRd | crcBrev | encBasic | dec | rxLen => rfl
  | encApdu => exact goesOn_ite (fun _ => rfl) fun _ => rfl
  | rxRd =>
    exact goesOn_withFrame inv fun hF _ => goesOn_ite (fun _ => rfl) fun hindex =>
      hF.goesOn_withByte (not_le.mp hindex) fun _ => rfl
  | clsTsucc => exact goesOn_withFrame inv fun hF h9 => hF.goesOn_withByte (by omega) fun _ => rfl
  | clsAsucc =>
    exact goesOn_withFrame inv fun hF h9 => hF.goesOn_withByte (by omega) fun _ =>
      goesOn_ite (fun _ => rfl) fun _ => hF.goesOn_withStatusWord fun _ => rfl
  | clsAdesc =>
    exact goesOn_withFrame inv fun hF _ => hF.goesOn_withStatusWord fun _ => goesOn_withEntry fun _ => rfl
  | clsStat =>
    refine goesOn_withFrame inv fun hF h9 => goesOn_ite (fun _ => rfl) fun hoffsets => ?_
    simp only [Bool.or_eq_true, not_or] at hoffsets
    obtain ⟨⟨h0, h1⟩, h2⟩ := hoffsets
    exact
      hF.goesOn_withByte (offset_lt_of_not_short h9 h0) fun _ => goesOn_withEntry fun _ =>
      hF.goesOn_withByte (offset_lt_of_not_short h9 h1) fun _ => goesOn_withEntry fun _ =>
      hF.goesOn_withByte (offset_lt_of_not_short h9 h2) fun _ => goesOn_withEntry fun _ => rfl
  | clsErr =>
    refine goesOn_withFrame inv fun hF h9 => goesOn_ite (fun _ => rfl) fun hoffsets => ?_
    simp only [Bool.or_eq_true, not_or] at hoffsets
    obtain ⟨h1, h0⟩ := hoffsets
    exact hF.goesOn_withBe16 (offset_lt_of_not_short h9 h1) (offset_lt_of_not_short h9 h0) fun _ =>
      goesOn_withEntry fun _ => rfl
  | clsFields =>
    exact goesOn_withFrame inv fun hF h9 =>
      hF.goesOn_withByte (by omega) fun _ => hF.goesOn_withBe16 (by omega) (by omega) fun _ =>
      hF.goesOn_withByte (by omega) fun _ => hF.goesOn_withByte (by omega) fun _ =>
      hF.goesOn_withByte (by omega) fun _ => hF.goesOn_withByte (by omega) fun _ =>
      hF.goesOn_withByte (by omega) fun _ => rfl
  | regRd n =>
    show goesOn (execRegRd n s) = true
    unfold execRegRd
    split <;> rfl

theorem hostStep_goesOn {s : State} (inv : BlockInv s) (hwhole : wholeOperation s) : goesOn (hostStep s) = true := by
  cases hops : decode s.ops with
  | op i rest =>
    rw [hostStep_op hops]
    exact exec_goesOn i (inv.of_decodeView rfl)
  | reserved => rw [hostStep_reserved hops]; rfl
  | incomplete => exact absurd hops hwhole
  | nothing => rw [hostStep_nothing hops]; rfl

theorem blockStep_goesOn {s : State} (inv : BlockInv s) (hwhole : wholeOperation s) : goesOn (blockStep s) = true :=
  goesOn_ite (fun h => (decoderStep_goesToInv inv h).goesOn) fun _ => hostStep_goesOn inv hwhole

/-- Settles O58: a reset event always happens, a busy decoder stores and reads within the buffer, and in a quiet phase an
operation reads a received frame only. -/
theorem stepGoesOnWhereTheInvariantsHold : Obligations.StepGoesOnWhereTheInvariantsHold := by
  intro s inv hwhole
  rcases step_cases s with ⟨line, _, hreset⟩ | ⟨_, hblock⟩
  · rw [hreset]
    rfl
  · rw [hblock]
    exact blockStep_goesOn (s := tick s) (inv.of_decodeView rfl) hwhole

end Sys2Proof.Machine

/-! SUPPORT. The step of the fifth header byte (spec/43_frame_decode.md R144 to R149). -/

namespace Sys2Proof.Machine

theorem afterByte_evalHeader {s : State} (hcnt : s.dcnt = 0) (hd : s.dph = .hdr) : afterByte s = evalHeader s := by
  simp [afterByte, hcnt, hd]

/-- R144, R145: the fifth byte completes the header, and the corrected header is checked. -/
theorem decoderStep_fifthByte {s : State} {h0 h1 h2 h3 h4 : Byte} {more : List RxAnswer} (hd : s.dph = .hdr)
    (hb : s.rxbuf = Memory.ofBytes [h0, h1, h2, h3]) (hn : s.rxLen = 4) (hcnt : s.dcnt = 1)
    (hin : s.inbound = .byte h4 :: more) :
    decoderStep s =
      if h0 = Config.ACK then
        checkStart { s with
          inbound := more, rxPos := s.rxPos + 1, rxbuf := Memory.ofBytes [h1, h2, h3, h4], rxLen := 4, dcnt := 0,
          dack := true }
      else
        checkStart { s with
          inbound := more, rxPos := s.rxPos + 1, rxbuf := Memory.ofBytes [h0, h1, h2, h3, h4], rxLen := 5, dcnt := 0,
          dack := false } := by
  have hlength : s.rxLen.toNat = [h0, h1, h2, h3].length := by rw [hn]; rfl
  have hroom : s.rxLen.toNat < s.cfg.rxCap := by
    rw [hlength]
    exact Nat.lt_of_lt_of_le (by simp) (rxCap_bounds s.cfg).1
  have hheader := store_rxbuf_ofBytes (s := s.consume more) h4 hb hlength
  have hzero : s.dcnt - 1 = 0 := by rw [hcnt]; rfl
  rw [decoderStep_store hin hroom, afterByte_evalHeader (s := (s.consume more).store h4) hzero hd,
    evalHeader_ofBytes hheader]
  simp only [State.store, State.consume, hb, hn, hcnt]
  rfl

/-- Settles O27: R145 tells the corrected header, and R146 to R149 are its checks. -/
theorem fifthHeaderByteIsEvaluated : Obligations.FifthHeaderByteIsEvaluated := by
  intro s h0 h1 h2 h3 h4 more hlow hd hb hn hcnt hin
  have hstep := (step_busy hlow (by simp [hd, Phase.busy])).trans
    (decoderStep_fifthByte (s := tick s) hd hb hn hcnt hin)
  by_cases hack : h0 = 6#8
  · rw [if_pos (show h0 = Config.ACK from hack), checkStart_ofBytes rfl (by simp)] at hstep
    simp [hstep, hack, decodeFail_eq, startTail, OpFault.code, frameLength, lengthField, count17]
  · rw [if_neg (show ¬ h0 = Config.ACK from hack), checkStart_ofBytes rfl (by simp)] at hstep
    simp [hstep, hack, decodeFail_eq, startTail, OpFault.code, frameLength, lengthField, count17]

end Sys2Proof.Machine

/-! SUPPORT. The registers by number (spec/10_state.md R31, R33; spec/45_system.md R196). -/

namespace Sys2Proof.Machine

/-! ## `STATUS` -/

theorem statusWord_toNat (s : State) :
    (statusWord s).toNat = s.derr.toNat * 256 + s.dack.toNat * 8 + s.dph.code.toNat := by
  have hderr := s.derr.isLt
  have hdack := s.dack.toNat_lt
  have hcode := s.dph.code.isLt
  rw [statusWord, BitVec.toNat_ofNat]
  omega

theorem regStatus_toNat (s : State) :
    ((statusWord s).setWidth 32).toNat = s.derr.toNat * 256 + s.dack.toNat * 8 + s.dph.code.toNat := by
  have := (statusWord s).isLt
  rw [BitVec.toNat_setWidth, ← statusWord_toNat]
  omega

theorem regStatus_extract_toNat (s : State) (k w : Nat) :
    (((statusWord s).setWidth 32).extractLsb' k w).toNat =
      (s.derr.toNat * 256 + s.dack.toNat * 8 + s.dph.code.toNat) / 2 ^ k % 2 ^ w := by
  rw [BitVec.extractLsb'_toNat, regStatus_toNat, Nat.shiftRight_eq_div_pow]

/-- R31: `DPH`, `DACK`, zeros, `DERR` and, above the 16 bits of `STATUS`, zeros. -/
theorem regStatus_fields (s : State) :
    ((statusWord s).setWidth 32).extractLsb' 0 3 = s.dph.code ∧
    ((statusWord s).setWidth 32).extractLsb' 3 1 = BitVec.ofBool s.dack ∧
    ((statusWord s).setWidth 32).extractLsb' 4 4 = 0 ∧
    ((statusWord s).setWidth 32).extractLsb' 8 8 = s.derr ∧
    ((statusWord s).setWidth 32).extractLsb' 16 16 = 0 := by
  have hderr := s.derr.isLt
  have hdack := s.dack.toNat_lt
  have hcode := s.dph.code.isLt
  refine ⟨?_, ?_, ?_, ?_, ?_⟩ <;> apply BitVec.eq_of_toNat_eq <;> rw [regStatus_extract_toNat]
  · omega
  · rw [BitVec.toNat_ofBool]
    omega
  · show _ = 0
    omega
  · omega
  · show _ = 0
    omega

/-! ## The other registers -/

/-- The upper half, where its two bytes are zero. -/
theorem word4_high_zero (b0 b1 : Byte) : (word4 b0 b1 0x00 0x00).extractLsb' 16 16 = 0 := by
  have h0 := b0.isLt
  have h1 := b1.isLt
  apply BitVec.eq_of_toNat_eq
  rw [BitVec.extractLsb'_toNat, word4_toNat, Nat.shiftRight_eq_div_pow]
  show (b0.toNat + b1.toNat * 256 + 0 * 65536 + 0 * 16777216) / 2 ^ 16 % 2 ^ 16 = 0
  omega

/-- R33: `ACK_ABSENT` is one bit, with zeros above it. -/
theorem ackAbsentByte_bits (a : AckAbsent) :
    (ackAbsentByte a).extractLsb' 0 1 = (if a = .realign then 1 else 0) ∧ (ackAbsentByte a).extractLsb' 1 7 = 0 := by
  cases a <;> decide

theorem zext32_toNat (b : Byte) : (zext32 b).toNat = b.toNat := by
  have := b.isLt
  rw [zext32, BitVec.toNat_setWidth]
  omega

theorem count_setWidth_toNat (n : Count) : (n.setWidth 32).toNat = n.toNat := by
  have := n.isLt
  rw [BitVec.toNat_setWidth]
  omega

theorem regValue_none {n : Byte} (h : 10 ≤ n.toNat) (s : State) : regValue n s = none := by
  have hne (k : Byte) (hk : k.toNat < 10) : n ≠ k := fun e => by subst e; omega
  simp [regValue, hne]

theorem execRegRd_none {n : Byte} {s : State} (h : regValue n s = none) :
    exec (.regRd n) s = .next { s with results := s.results ++ [.fault .badReg] } := by
  simp only [exec, execRegRd, h, raise, deliver]

/-- Settles O46: each number from 0 to 9 has its register and its fields, and no other number names one. -/
theorem regRdReturnsEachRegister : Obligations.RegRdReturnsEachRegister := by
  refine ⟨fun _ _ => rfl, fun s => ⟨?status, ?bcc, ?crc, ?rxLen, ?dcnt, ?cfg0, ?cfg1, ?cfg2, ?cfg3, ?rxCap, ?none⟩⟩
  case status => exact ⟨_, rfl, regStatus_fields s⟩
  case bcc => exact ⟨_, rfl, zext32_toNat s.bcc⟩
  case crc => exact ⟨_, rfl, rfl⟩
  case rxLen => exact ⟨_, rfl, count_setWidth_toNat s.rxLen⟩
  case dcnt => exact ⟨_, rfl, count_setWidth_toNat s.dcnt⟩
  case cfg0 => exact ⟨_, rfl, word4_byte0 .., word4_byte1 .., word4_byte2 .., word4_byte3 ..⟩
  case cfg1 =>
    obtain ⟨hbit, hrest⟩ := ackAbsentByte_bits s.cfg.ackAbsent
    exact ⟨_, rfl, word4_byte0 .., word4_byte1 .., word4_byte2 .., (word4_top _ _ _ _ 0 1 (by omega)).trans hbit,
      (word4_top _ _ _ _ 1 7 (by omega)).trans hrest⟩
  case cfg2 => exact ⟨_, rfl, word4_byte0 .., word4_byte1 .., word4_byte2 .., word4_byte3 ..⟩
  case cfg3 => exact ⟨_, rfl, word4_byte0 .., word4_byte1 .., word4_high_zero ..⟩
  case rxCap =>
    have hcap := rxCap_bounds s.cfg
    exact ⟨_, rfl, (BitVec.toNat_ofNat ..).trans (Nat.mod_eq_of_lt (by omega))⟩
  case none => exact fun n hn => execRegRd_none (regValue_none hn s)

end Sys2Proof.Machine

/-! SUPPORT. The agents' order of moves (spec/20_memory.md R61): the host's operation in a quiet phase, and the host blocked
while a decode runs (spec/43_frame_decode.md R141, R156). -/

namespace Sys2Proof.Machine

/-- Settles O6: without a reset a quiet step is the host's, and the host's bytes decode alike once the sample is taken. -/
theorem stepRunsTheDecodedOperation : Obligations.StepRunsTheDecodedOperation := by
  intro s i rest hlow hquiet hop
  calc
    step s = hostStep (tick s) := step_quiet hlow hquiet
    _ = exec i { tick s with ops := rest } := hostStep_op (s := tick s) hop

/-! ## A result comes when the decode ends, and not before -/

/-- A decode that goes on has added no result to those before it; one that has ended has added exactly one. -/
inductive ResultAtEnd (before : List Response) (t : State) : Prop where
  | goesOn (hphase : t.dph.busy = true) (hresults : t.results = before)
  | ended (hphase : t.dph.busy = false) (r : Response) (hresults : t.results = before ++ [r])

/-- The answer adds a result to those of `s` if the decode has ended in it, and none otherwise. -/
abbrev AnswersAtEnd (s : State) (r : Result) : Prop := IfNext (ResultAtEnd s.results) r

theorem decodeFail_answersAtEnd (f : OpFault) (s : State) : AnswersAtEnd s (decodeFail f s) :=
  ifNext_next (.ended rfl _ rfl)

theorem decodeDone_answersAtEnd (s : State) : AnswersAtEnd s (decodeDone s) := ifNext_next (.ended rfl _ rfl)

/-- R148, R149: a good length leaves the decode in `TAIL`, which is busy. -/
theorem checkLength_answersAtEnd (s : State) : AnswersAtEnd s (checkLength s) :=
  ifNext_withByte fun _ => ifNext_withByte fun _ =>
    ifNext_ite (decodeFail_answersAtEnd _ _) <|
      ifNext_ite (decodeFail_answersAtEnd _ _) <| ifNext_next (.goesOn rfl rfl)

theorem checkStart_answersAtEnd (s : State) : AnswersAtEnd s (checkStart s) :=
  ifNext_withByte fun _ =>
    ifNext_ite (decodeFail_answersAtEnd _ _) <|
      ifNext_ite (decodeFail_answersAtEnd _ _) <| checkLength_answersAtEnd s

theorem evalHeader_answersAtEnd (s : State) : AnswersAtEnd s (evalHeader s) :=
  ifNext_withByte fun _ =>
    ifNext_ite
      (ifNext_withByte fun _ => ifNext_withByte fun _ => ifNext_withByte fun _ => ifNext_withByte fun _ =>
        checkStart_answersAtEnd { s with rxbuf := _, rxLen := 4, dack := true })
      (checkStart_answersAtEnd { s with dack := false })

theorem validateFrame_answersAtEnd (s : State) : AnswersAtEnd s (validateFrame s) := by
  refine ifNext_withByte fun _ => ifNext_ite (decodeFail_answersAtEnd _ _) ?_
  unfold checkChecksum
  split
  · exact ifNext_withByte fun _ => ifNext_ite (decodeFail_answersAtEnd _ _) (decodeDone_answersAtEnd s)
  · exact ifNext_fault _ _

theorem afterByte_answersAtEnd {s : State} (h : s.dph.busy = true) : AnswersAtEnd s (afterByte s) :=
  ifNext_ite (ifNext_ite (evalHeader_answersAtEnd s) (validateFrame_answersAtEnd s)) (ifNext_next (.goesOn h rfl))

/-- R155, R156: a wait or a byte before the last leaves the decode busy, and every end of it returns one result. -/
theorem decoderStep_answersAtEnd {s : State} (h : s.dph.busy = true) : AnswersAtEnd s (decoderStep s) := by
  unfold decoderStep
  split
  case h_1 | h_2 => exact ifNext_next (.goesOn h rfl)
  case h_3 rest _ => exact decodeFail_answersAtEnd _ { s with inbound := rest }
  case h_4 b rest _ =>
    exact ifNext_storeByte <|
      afterByte_answersAtEnd (s := { s with inbound := rest, rxPos := _, rxbuf := _, rxLen := _, dcnt := _ }) h

/-- R231: in a busy phase a reset delivers `Aborted`, and nothing else. -/
theorem resetEvent_answersAtEnd {s : State} (h : s.dph.busy = true) : ResultAtEnd s.results (resetEvent s) :=
  .ended rfl .aborted (by simp [abortedBy, h])

/-- A busy step is a reset event or the decoder's. -/
theorem step_answersAtEnd {s : State} (h : s.dph.busy = true) : AnswersAtEnd s (step s) := by
  rcases step_cases s with ⟨line, _, hreset⟩ | ⟨hlow, _⟩
  · rw [hreset]
    exact ifNext_next (resetEvent_answersAtEnd (s := { s with resetLine := line }) h)
  · rw [step_busy hlow h]
    exact decoderStep_answersAtEnd (s := tick s) h

/-- R61 (b): no byte of the host's program is taken in a busy phase. -/
theorem step_busy_keepsOps {s : State} (h : s.dph.busy = true) : IfNext (fun t => t.ops = s.ops) (step s) := by
  rcases step_cases s with ⟨line, _, hreset⟩ | ⟨hlow, _⟩
  · rw [hreset]
    exact ifNext_next rfl
  · rw [step_busy hlow h]
    exact fun t ht => congrArg Surroundings.ops (decoderStep_keepsSurroundings (tick s) t ht)

/-- Settles O7. -/
theorem hostIsBlockedDuringADecode : Obligations.HostIsBlockedDuringADecode := by
  intro s t hbusy ht
  refine ⟨step_busy_keepsOps hbusy t ht, ?_⟩
  cases step_answersAtEnd hbusy t ht with
  | goesOn hphase hresults => simp [hphase, hresults]
  | ended hphase r hresults => simp [hphase, hresults]

end Sys2Proof.Machine

/-! SUPPORT. The outbound stream (spec/20_memory.md R51; spec/42_frame_encode.md R127). -/

namespace Sys2Proof.Machine

/-! ## A write whose answer is free -/

/-- R127 where no answer is listed: the whole frame and `Ok`, or a beginning of it and `ChannelIOError`. -/
theorem sendFrame_unlisted (F : List Byte) {s : State} (h : s.txAnswers = []) :
    sendFrame F s = .next { s with outbound := s.outbound ++ [F], results := s.results ++ [.ok .nothing] } ∨
    ∃ sent, sendFrame F s = .next { s with
      outbound := s.outbound ++ [F.take sent], results := s.results ++ [.fault .channelIOError] } := by
  cases hanswer : txAnswer s with
  | ok =>
    left
    simp [sendFrame_eq, hanswer, h, onTheWire, txResponse]
  | ioError sent =>
    right
    exact ⟨sent, by simp [sendFrame_eq, hanswer, h, onTheWire, txResponse]⟩

/-- Settles O23: both encodes send their frame. -/
theorem unlistedWriteAnswersAreFree : Obligations.UnlistedWriteAnswersAreFree := by
  rintro s i F hnone (⟨addr, cm, pm, rfl, rfl⟩ | ⟨addr, A, rfl, hlength, rfl⟩)
  · rw [execEncBasic_eq]
    exact sendFrame_unlisted _ hnone
  · rw [execEncApdu_fits hlength]
    exact sendFrame_unlisted _ hnone

/-! ## What a step adds to the outbound stream -/

/-- The frames the encoder makes under a configuration (R125, R126). -/
def EncoderFrame (c : Cfg) (F : List Byte) : Prop :=
  (∃ addr cm pm, F = encBasicFrame c addr cm pm) ∨ ∃ addr A, A.length ≤ 65532 ∧ F = encApduFrame c addr A

/-- The outbound stream of `t` is that of `s`, or has one write more, a beginning of a frame of the encoder. -/
def GrowsByFrame (s t : State) : Prop :=
  t.outbound = s.outbound ∨ ∃ F out, t.outbound = s.outbound ++ [out] ∧ out <+: F ∧ EncoderFrame s.cfg F

theorem sendFrame_growsByFrame {s : State} {F : List Byte} (h : EncoderFrame s.cfg F) :
    IfNext (GrowsByFrame s) (sendFrame F s) :=
  ifNext_next (.inr ⟨F, _, rfl, onTheWire_prefix F _, h⟩)

/-- R20: only an encode writes to the channel. -/
theorem exec_keepsOutbound {i : Instr} (h : sends i = false) (s : State) :
    IfNext (fun t => t.outbound = s.outbound) (exec i s) := by
  intro t ht
  cases exec_effect i s t ht with
  | result | bcc | crc | start => rfl
  | frame hsends => exact absurd hsends (by simp [h])

theorem exec_growsByFrame (i : Instr) (s : State) : IfNext (GrowsByFrame s) (exec i s) := by
  cases i with
  | encBasic addr cm pm => exact sendFrame_growsByFrame (.inl ⟨addr, cm, pm, rfl⟩)
  | encApdu addr apdu =>
    by_cases hfits : apdu.length ≤ Config.APDU_MAX
    · rw [execEncApdu_fits hfits]
      exact sendFrame_growsByFrame (.inr ⟨addr, apdu, hfits, rfl⟩)
    · rw [execEncApdu_refused (Nat.lt_of_not_le hfits)]
      exact ifNext_next (.inl rfl)
  | bccClr | bccUpd | bccRd | crcInit | crcUpd | crcRd | crcBrev | dec | rxLen | rxRd | clsTsucc | clsAsucc | clsAdesc
  | clsStat | clsErr | clsFields | regRd =>
    exact fun t ht => .inl (exec_keepsOutbound rfl s t ht)

theorem hostStep_growsByFrame (s : State) : IfNext (GrowsByFrame s) (hostStep s) := by
  unfold hostStep
  split
  case h_1 i rest _ => exact exec_growsByFrame i { s with ops := rest }
  case h_2 | h_4 => exact ifNext_next (.inl rfl)
  case h_3 => exact ifNext_refused _ _

/-- R61 (d): the decoder leaves the outbound stream alone, and the host runs one operation. -/
theorem blockStep_growsByFrame (s : State) : IfNext (GrowsByFrame s) (blockStep s) :=
  ifNext_ite (fun t ht => .inl (congrArg Surroundings.outbound (decoderStep_keepsSurroundings s t ht)))
    (hostStep_growsByFrame s)

/-- R232: a reset event leaves the stream as it is, too. -/
theorem step_growsByFrame (s : State) : IfNext (GrowsByFrame s) (step s) := by
  rcases step_cases s with ⟨line, _, hreset⟩ | ⟨_, hblock⟩
  · rw [hreset]
    exact ifNext_next (.inl rfl)
  · rw [hblock]
    exact blockStep_growsByFrame (tick s)

/-- Settles O53. -/
theorem outboundStreamOnlyGrowsByFrames : Obligations.OutboundStreamOnlyGrowsByFrames := step_growsByFrame

end Sys2Proof.Machine

/-! SUPPORT. Decoding and encoding of host operations (spec/30_encoding.md R77 to R86): the operand bytes after each
operation code, and that the bytes of an operation and the operation determine each other. -/

namespace Sys2Proof.Machine

/-! ## The operation codes (R85) -/

/-- The codes of the map of R85. -/
def opcodes : List Byte :=
  [0x10#8, 0x11#8, 0x12#8, 0x20#8, 0x21#8, 0x22#8, 0x23#8, 0x30#8, 0x31#8, 0x40#8, 0x41#8, 0x42#8, 0x50#8, 0x51#8,
    0x52#8, 0x53#8, 0x54#8, 0x55#8, 0x60#8]

/-- One operation of each code, its operands zero or empty. -/
def sampleInstrs : List Instr :=
  [.bccClr, .bccUpd 0, .bccRd, .crcInit, .crcUpd 0, .crcRd, .crcBrev, .encBasic 0 0 0, .encApdu 0 [], .dec, .rxLen,
    .rxRd 0, .clsTsucc, .clsAsucc, .clsAdesc, .clsStat, .clsErr, .clsFields, .regRd 0]

theorem map_opcode_sampleInstrs : sampleInstrs.map opcode = opcodes := rfl

theorem exists_opcode_of_mem {code : Byte} (h : code ∈ opcodes) : ∃ i, opcode i = code := by
  rw [← map_opcode_sampleInstrs] at h
  obtain ⟨i, _, hi⟩ := List.mem_map.mp h
  exact ⟨i, hi⟩

/-- R86: a code outside the map reads no operand byte. -/
theorem decode_reserved {code : Byte} (h : code ∉ opcodes) (rest : List Byte) :
    decode (code :: rest) = .reserved code rest := by
  simp only [opcodes, List.mem_cons, List.not_mem_nil, or_false, not_or] at h
  simp [decode, decodeAfter, h]

/-! ## The operand bytes, by format (R78) -/

/-- How the bytes after an operation's code are read: by the format of the operation, whose own operands do not matter. -/
def decodeOperands (i : Instr) (bs : List Byte) : Decoded :=
  match i with
  | .bccUpd _ => decodeB .bccUpd bs
  | .crcUpd _ => decodeB .crcUpd bs
  | .regRd _ => decodeB .regRd bs
  | .encBasic _ _ _ => decodeC3 .encBasic bs
  | .rxRd _ => decodeX3 .rxRd bs
  | .encApdu _ _ => decodeAV .encApdu bs
  | .bccClr | .bccRd | .crcInit | .crcRd | .crcBrev | .dec | .rxLen | .clsTsucc | .clsAsucc | .clsAdesc | .clsStat
  | .clsErr | .clsFields => .op i bs

/-- The decoder tells the format from the operation code (R85). -/
theorem decode_opcode_cons (i : Instr) (bs : List Byte) : decode (opcode i :: bs) = decodeOperands i bs := by
  cases i <;> rfl

theorem decodeB_eq_op {make : Byte → Instr} {bs rest : List Byte} {i : Instr} (h : decodeB make bs = .op i rest) :
    ∃ b, i = make b ∧ bs = b :: rest := by
  unfold decodeB at h
  split at h
  · cases h
    exact ⟨_, rfl, rfl⟩
  · cases h

theorem decodeC3_eq_op {make : Byte → Byte → Byte → Instr} {bs rest : List Byte} {i : Instr}
    (h : decodeC3 make bs = .op i rest) : ∃ a c p, i = make a c p ∧ bs = a :: c :: p :: rest := by
  unfold decodeC3 at h
  split at h
  · cases h
    exact ⟨_, _, _, rfl, rfl⟩
  · cases h

/-- R82: the three bytes read are those of the index. -/
theorem decodeX3_eq_op {make : Index24 → Instr} {bs rest : List Byte} {i : Instr} (h : decodeX3 make bs = .op i rest) :
    ∃ index, i = make index ∧ bs = index24Bytes index ++ rest := by
  unfold decodeX3 at h
  split at h
  · cases h
    exact ⟨_, rfl, by rw [index24Bytes_index24]; rfl⟩
  · cases h

/-- R81: the two length bytes of a payload that fits give its length back. -/
theorem lengthField_of_length {apdu : List Byte} (h : apduFits apdu = true) :
    lengthField (hi8 (BitVec.ofNat 16 apdu.length)) (lo8 (BitVec.ofNat 16 apdu.length)) = apdu.length := by
  have hfits : apdu.length ≤ 65535 := of_decide_eq_true h
  rw [lengthField, be16_hi8_lo8, BitVec.toNat_ofNat]
  omega

/-- R81: a payload as long as the two length bytes say has those length bytes, and fits. -/
theorem lengthBytes_of_lengthField {h l : Byte} {apdu : List Byte} (hm : apdu.length = lengthField h l) :
    hi8 (BitVec.ofNat 16 apdu.length) = h ∧ lo8 (BitVec.ofNat 16 apdu.length) = l ∧ apduFits apdu = true := by
  have hbytes : BitVec.ofNat 16 apdu.length = be16 h l := by rw [hm, lengthField, BitVec.ofNat_toNat, BitVec.setWidth_eq]
  have hlt : lengthField h l < 65536 := (be16 h l).isLt
  exact ⟨by rw [hbytes, hi8_be16], by rw [hbytes, lo8_be16], decide_eq_true (by omega)⟩

theorem decodeAV_eq_op {make : Byte → List Byte → Instr} {bs rest : List Byte} {i : Instr}
    (hop : decodeAV make bs = .op i rest) :
    ∃ a apdu, i = make a apdu ∧ apduFits apdu = true ∧
      bs = a :: hi8 (BitVec.ofNat 16 apdu.length) :: lo8 (BitVec.ofNat 16 apdu.length) :: (apdu ++ rest) := by
  unfold decodeAV at hop
  split at hop
  next a h l more =>
    split at hop
    · cases hop
    next hlong =>
      cases hop
      have hm : (more.take (lengthField h l)).length = lengthField h l := List.length_take_of_le (not_lt.mp hlong)
      obtain ⟨hhi, hlo, hfits⟩ := lengthBytes_of_lengthField hm
      exact ⟨a, _, rfl, hfits, by rw [hhi, hlo, List.take_append_drop]⟩
  · cases hop

/-! ## The operation from its bytes, and the bytes from the operation -/

theorem decodeOperands_operandBytes {i : Instr} (rest : List Byte) (h : i.wellFormed = true) :
    decodeOperands i (operandBytes i ++ rest) = .op i rest := by
  cases i with
  | encApdu addr apdu =>
    have hm := lengthField_of_length h
    simp [decodeOperands, operandBytes, decodeAV, hm]
  | rxRd index => exact congrArg (fun v => Decoded.op (.rxRd v) rest) (index24_bytes index)
  | bccUpd | crcUpd | regRd | encBasic | bccClr | bccRd | crcInit | crcRd | crcBrev | dec | rxLen | clsTsucc | clsAsucc
  | clsAdesc | clsStat | clsErr | clsFields => rfl

/-- An operation read with the format of `j` has the code of `j`, and its operand bytes are those read. -/
theorem decodeOperands_eq_op {j i : Instr} {bs rest : List Byte} (h : decodeOperands j bs = .op i rest) :
    opcode i = opcode j ∧ bs = operandBytes i ++ rest ∧ i.wellFormed = true := by
  cases j with
  | bccUpd | crcUpd | regRd =>
    obtain ⟨b, rfl, rfl⟩ := decodeB_eq_op h
    exact ⟨rfl, rfl, rfl⟩
  | encBasic =>
    obtain ⟨a, c, p, rfl, rfl⟩ := decodeC3_eq_op h
    exact ⟨rfl, rfl, rfl⟩
  | rxRd =>
    obtain ⟨index, rfl, rfl⟩ := decodeX3_eq_op h
    exact ⟨rfl, rfl, rfl⟩
  | encApdu =>
    obtain ⟨a, apdu, rfl, hfits, rfl⟩ := decodeAV_eq_op h
    exact ⟨rfl, rfl, hfits⟩
  | bccClr | bccRd | crcInit | crcRd | crcBrev | dec | rxLen | clsTsucc | clsAsucc | clsAdesc | clsStat | clsErr
  | clsFields =>
    cases h
    exact ⟨rfl, rfl, rfl⟩

/-- Settles O1: the code tells the format, and the format reads the operand bytes back. -/
theorem decodeOfEncodeGivesTheOperation : Obligations.DecodeOfEncodeGivesTheOperation := by
  intro i rest hwf
  calc
    decode (encode i ++ rest) = decodeOperands i (operandBytes i ++ rest) := decode_opcode_cons i _
    _ = .op i rest := decodeOperands_operandBytes rest hwf

/-- Settles O2: the first byte is the code of some operation, since a reserved code decodes to none, and the bytes after it
were read with that operation's format. -/
theorem decodedBytesAreTheEncodedOperation : Obligations.DecodedBytesAreTheEncodedOperation := by
  intro bs rest i hop
  cases bs with
  | nil => cases hop
  | cons code tail =>
    by_cases hcode : code ∈ opcodes
    · obtain ⟨j, rfl⟩ := exists_opcode_of_mem hcode
      rw [decode_opcode_cons] at hop
      obtain ⟨hj, rfl, hwf⟩ := decodeOperands_eq_op hop
      exact ⟨by rw [← hj]; rfl, hwf⟩
    · rw [decode_reserved hcode] at hop
      cases hop

/-- Settles O3: each word is the encoding of its operation. -/
theorem wordsOfTheSpecDecode : Obligations.WordsOfTheSpecDecode :=
  have decodes := decodeOfEncodeGivesTheOperation
  ⟨decodes .bccRd [] rfl, decodes (.bccUpd 0xF2) [] rfl, decodes (.crcUpd 0x31) [] rfl,
    decodes (.encBasic 0x00 0x30 0x33) [] rfl, decodes (.encApdu 0x00 [0x90, 0x60, 0x00, 0x00, 0x00]) [] rfl,
    decodes .dec [0x50] rfl, decodes (.rxRd 10) [] rfl, decodes .clsErr [] rfl, decodes (.regRd 9) [] rfl⟩

/-! ## Reserved codes and missing bytes -/

/-- Settles O4. -/
theorem reservedCodesReturnIllegalOp : Obligations.ReservedCodesReturnIllegalOp := by
  intro s code rest hlow hquiet hops hcode
  have hdecode : decode (tick s).ops = .reserved code rest := by
    rw [tick_ops, hops]
    exact decode_reserved hcode rest
  exact ⟨(step_quiet hlow hquiet).trans (hostStep_reserved hdecode), rfl⟩

/-- R81: fewer payload bytes than the length bytes say. -/
theorem decodeAV_short {a h l : Byte} {payload : List Byte} (hshort : payload.length < lengthField h l)
    (make : Byte → List Byte → Instr) : decodeAV make (a :: h :: l :: payload) = .incomplete := if_pos hshort

/-- R77: fewer operand bytes than the format has. -/
theorem decodeOperands_take {i : Instr} {k : Nat} (hwf : i.wellFormed = true) (hk : k < (operandBytes i).length) :
    decodeOperands i ((operandBytes i).take k) = .incomplete := by
  cases i with
  | bccUpd | crcUpd | regRd =>
    match k, hk with
    | 0, _ => rfl
  | encBasic | rxRd =>
    match k, hk with
    | 0, _ | 1, _ | 2, _ => rfl
  | encApdu addr apdu =>
    match k, hk with
    | 0, _ | 1, _ | 2, _ => rfl
    | n + 3, hk =>
      have hn : n < apdu.length := by simpa [operandBytes] using hk
      refine decodeAV_short ?_ _
      rw [lengthField_of_length hwf, List.length_take]
      omega
  | bccClr | bccRd | crcInit | crcRd | crcBrev | dec | rxLen | clsTsucc | clsAsucc | clsAdesc | clsStat | clsErr
  | clsFields => exact absurd hk (Nat.not_lt_zero k)

/-- Settles O5: the operation code is there, so the format is known and operand bytes are missing. -/
theorem missingOperandBytesHaveNoMeaning : Obligations.MissingOperandBytesHaveNoMeaning := by
  refine ⟨fun s hlow hquiet hmissing => ?_, fun i k hwf hpos hk => ?_⟩
  · exact (step_quiet hlow hquiet).trans (hostStep_incomplete (s := tick s) hmissing)
  · obtain ⟨n, rfl⟩ : ∃ n, k = n + 1 := ⟨k - 1, by omega⟩
    have hn : n < (operandBytes i).length := Nat.lt_of_succ_lt_succ hk
    exact (decode_opcode_cons i _).trans (decodeOperands_take hwf hn)

end Sys2Proof.Machine

/-! SUPPORT. Operations issued one after the other: the blocks and exchanges of spec/30_encoding.md R92, and how many results
an operation returns (R79). -/

namespace Sys2Proof.Machine

/-! ## One after the other -/

theorem issueAll_cons {i : Instr} {s t : State} (h : exec i s = .next t) (is : List Instr) :
    issueAll (i :: is) s = issueAll is t := by
  simp only [issueAll, h]

theorem issueAll_append {is : List Instr} {s t : State} (h : issueAll is s = .next t) (js : List Instr) :
    issueAll (is ++ js) s = issueAll js t := by
  induction is generalizing s with
  | nil =>
    cases h
    rfl
  | cons i is ih =>
    cases hi : exec i s with
    | next u =>
      rw [issueAll_cons hi] at h
      rw [List.cons_append, issueAll_cons hi, ih h]
    | fault | refused => simp [issueAll, hi] at h

/-! ## Blocks: a register is loaded, folded and read -/

section
variable {α : Type} {put : α → List Response → State} {fold : α → Byte → α} {upd : Byte → Instr}
  (hupd : ∀ b x results, exec (upd b) (put x results) = .next (put (fold x b) (results ++ [.ok .nothing])))
include hupd

/-- A run of updates folds its bytes into the register, whose value and the results before it `put` takes. -/
theorem issueAll_map_upd (bs : List Byte) (x : α) (results : List Response) :
    issueAll (bs.map upd) (put x results) =
      .next (put (bs.foldl fold x) (results ++ List.replicate bs.length (.ok .nothing))) := by
  induction bs generalizing x results with
  | nil => simp [issueAll]
  | cons b bs ih =>
    rw [List.map_cons, issueAll_cons (hupd b x results), ih]
    simp [List.replicate_succ]

/-- R92: a block of a load, updates and a read returns the fold of its bytes, as the read shows it. -/
theorem issueAll_block {init read : Instr} {s : State} {start : α} {shown : α → Value}
    (hinit : exec init s = .next (put start (s.results ++ [.ok .nothing])))
    (hread : ∀ x results, exec read (put x results) = .next (put x (results ++ [.ok (shown x)]))) (bs : List Byte) :
    issueAll (init :: (bs.map upd ++ [read])) s =
      .next (put (bs.foldl fold start)
        (s.results ++ List.replicate (bs.length + 1) (.ok .nothing) ++ [.ok (shown (bs.foldl fold start))])) := by
  rw [issueAll_cons hinit, issueAll_append (issueAll_map_upd hupd bs start _), issueAll_cons (hread _ _)]
  simp [issueAll, List.replicate_succ]

end

/-- `s` with this value in `BCC` and these results. -/
def State.withBcc (s : State) (x : Byte) (results : List Response) : State := { s with bcc := x, results := results }

/-- `s` with this value in `CRC` and these results. -/
def State.withCrc (s : State) (x : Word32) (results : List Response) : State := { s with crc := x, results := results }

theorem bcc_append_singleton (S : List Byte) (b : Byte) : bcc (S ++ [b]) = bcc S ^^^ b := List.foldl_concat ..

theorem crc32Reflected_append_singleton (S : List Byte) (b : Byte) :
    crc32Reflected (S ++ [b]) = crcByte (crc32Reflected S) b := List.foldl_concat ..

/-- Settles O12: `BCC.CLR` loads 0x00, where the recursion of R100 starts, and `BCC.UPD` is its step. -/
theorem bccBlockReturnsTheRunningXor : Obligations.BccBlockReturnsTheRunningXor :=
  ⟨rfl, bcc_append_singleton, fun bs s =>
    issueAll_block (put := s.withBcc) (fun b x results => execBccUpd_eq b (s.withBcc x results)) (execBccClr_eq s)
      (fun _ _ => rfl) bs⟩

/-- Settles O18: `CRC.INIT` loads the initial value of R112, and `CRC.UPD` is its step. -/
theorem crcBlockReturnsTheReflectedCrc : Obligations.CrcBlockReturnsTheReflectedCrc := by
  refine ⟨rfl, crc32Reflected_append_singleton, fun bs s => ?_⟩
  have hblock (read : Instr) (shown : Word32 → Value) :=
    issueAll_block (put := s.withCrc) (fun b x results => execCrcUpd_eq b (s.withCrc x results)) (read := read)
      (shown := shown) (execCrcInit_eq s)
  exact ⟨hblock .crcRd .word (fun _ _ => rfl) bs,
    hblock .crcBrev (fun r => .bytes (byteReverse r)) (fun _ _ => rfl) bs⟩

/-! ## How many results an operation returns -/

/-- R79: every operation but `DEC` ends when it is issued, and delivers its result. -/
theorem exec_results {i : Instr} (h : i ≠ .dec) (s : State) :
    IfNext (fun t => ∃ r, t.results = s.results ++ [r]) (exec i s) := by
  intro t ht
  cases exec_effect i s t ht with
  | result r | bcc _ _ r | crc _ _ r | frame _ _ _ r => exact ⟨r, rfl⟩
  | start hdec => exact absurd hdec h

/-- Settles O50. -/
theorem everyOperationReturnsOneResult : Obligations.EveryOperationReturnsOneResult := by
  intro i s t ht
  split
  next hdec =>
    subst hdec
    rw [execDec_eq] at ht
    cases ht
    rfl
  next hdec => exact exec_results hdec s t ht

/-! ## Exchanges -/

theorem exchange_ok {enc : Instr} {s t : State} (h : exec enc s = .next t) (hok : lastOk t = true) :
    exchange enc s = exec .dec t := by
  simp only [exchange, h, hok, if_true]

theorem exchange_failed {enc : Instr} {s t : State} (h : exec enc s = .next t) (hfault : lastOk t = false) :
    exchange enc s = .next t := by
  simp [exchange, h, hfault]

/-- R20, R127: an encode leaves the decoder's phase alone. -/
theorem exec_keepsPhase_of_sends {enc : Instr} (h : sends enc = true) (s : State) :
    IfNext (fun t => t.dph = s.dph) (exec enc s) := by
  intro t ht
  cases exec_effect enc s t ht with
  | result | bcc | crc | frame => rfl
  | start hdec =>
    subst hdec
    cases h

/-- Settles O55. -/
theorem exchangeIssuesDecOnlyAfterOk : Obligations.ExchangeIssuesDecOnlyAfterOk := by
  intro enc s t hsends ht
  refine ⟨fun hok => ?_, fun hfault => ⟨exchange_failed ht hfault, exec_keepsPhase_of_sends hsends s t ht⟩⟩
  have hdec := exchange_ok ht hok
  exact ⟨hdec, _, hdec.trans (execDec_eq t), rfl⟩

end Sys2Proof.Machine

/-! SUPPORT. The BCC family (spec/40_bcc.md): `bcc` as a sum without carry (R104, R105), and the run of updates (R102). -/

namespace Sys2Proof.Machine

/-! ## The arithmetic of `bcc` -/

/-- R102: folding the bytes into any accumulator xors their `bcc` into it. -/
theorem foldl_xor_eq_xor_bcc (bs : List Byte) (x : Byte) : bs.foldl (· ^^^ ·) x = x ^^^ bcc bs :=
  calc
    bs.foldl (· ^^^ ·) x = bs.foldl (· ^^^ ·) (x ^^^ 0x00) := by simp
    _ = x ^^^ bcc bs := List.foldl_assoc

@[simp] theorem bcc_nil : bcc [] = 0x00 := rfl

@[simp] theorem bcc_cons (b : Byte) (bs : List Byte) : bcc (b :: bs) = b ^^^ bcc bs :=
  (congrArg (bs.foldl (· ^^^ ·)) BitVec.zero_xor).trans (foldl_xor_eq_xor_bcc bs b)

theorem bcc_append (S T : List Byte) : bcc (S ++ T) = bcc S ^^^ bcc T :=
  List.foldl_append.trans (foldl_xor_eq_xor_bcc T (bcc S))

theorem bcc_eq_of_perm {S T : List Byte} (h : S.Perm T) : bcc S = bcc T := h.foldl_eq 0x00

/-- R104: appending the checksum, and only that, folds the whole to zero. -/
theorem bcc_append_singleton_eq_zero_iff (P : List Byte) (c : Byte) : bcc (P ++ [c]) = 0x00 ↔ bcc P = c := by
  rw [bcc_append_singleton]
  exact BitVec.xor_eq_zero_iff

/-- R105: flips change `bcc` by the `bcc` of the flips. -/
theorem bcc_zipWith_xor {S M : List Byte} (h : M.length = S.length) :
    bcc (List.zipWith (· ^^^ ·) S M) = bcc S ^^^ bcc M := by
  induction S generalizing M with
  | nil =>
    obtain rfl := List.length_eq_zero_iff.mp h
    rfl
  | cons b S ih =>
    cases M with
    | nil => cases h
    | cons m M =>
      rw [List.zipWith_cons_cons, bcc_cons, bcc_cons, bcc_cons, ih (Nat.succ.inj h)]
      ac_rfl

/-- R105: a bit of `bcc` is the parity of that bit over the bytes. -/
theorem getLsbD_bcc_iff (M : List Byte) (k : Nat) : (bcc M).getLsbD k ↔ Odd (M.countP fun m => m.getLsbD k) := by
  induction M with
  | nil => simp
  | cons m M ih =>
    rw [bcc_cons, BitVec.getLsbD_xor, List.countP_cons]
    cases hm : m.getLsbD k with
    | false => simpa using ih
    | true => simp [Nat.odd_add_one, ← ih]

theorem bcc_eq_zero_of_even {M : List Byte} (h : ∀ k, k < 8 → Even (M.countP fun m => m.getLsbD k)) : bcc M = 0x00 := by
  refine BitVec.eq_of_getLsbD_eq fun k hk => ?_
  have hclear : ¬ (bcc M).getLsbD k := fun hset => Nat.not_odd_iff_even.mpr (h k hk) ((getLsbD_bcc_iff M k).mp hset)
  simpa using hclear

/-! ## The statements -/

/-- Settles O11: what each operation does is its equation, and a run of updates folds from whatever `BCC` holds. -/
theorem bccOperationsClearFoldAndRead : Obligations.BccOperationsClearFoldAndRead := by
  have decodes := decodeOfEncodeGivesTheOperation
  refine ⟨fun rest => decodes .bccClr rest rfl, fun b rest => decodes (.bccUpd b) rest rfl,
    fun rest => decodes .bccRd rest rfl, execBccClr_eq, execBccUpd_eq, fun _ => rfl, fun bs s => ?_⟩
  rw [← foldl_xor_eq_xor_bcc]
  exact issueAll_map_upd (put := s.withBcc) (fun b x results => execBccUpd_eq b (s.withBcc x results)) bs s.bcc
    s.results

/-- Settles O13. -/
theorem bccVerifiesByFolding : Obligations.BccVerifiesByFolding :=
  ⟨fun P c => (bcc_append_singleton_eq_zero_iff P c).symm,
    fun B => (bcc_append_singleton_eq_zero_iff B (bcc B)).mpr rfl⟩

/-- Settles O14: `bcc` is additive, so flips that are even in each bit position add zero. -/
theorem bccLaws : Obligations.BccLaws := by
  refine ⟨bcc_append, fun _ _ => bcc_eq_of_perm, fun S b => ?twice, fun b => ?one, fun S M hlength heven => ?flips⟩
  case twice => simp [bcc_append]
  case one => simp
  case flips =>
    rw [bcc_zipWith_xor hlength, bcc_eq_zero_of_even heven]
    exact BitVec.xor_zero

end Sys2Proof.Machine

/-! SUPPORT. The CRC family (spec/41_crc32.md): a round, and so a byte, permutes the register (R119), and the four
lengths of a byte reversal (R116). -/

namespace Sys2Proof.Machine

/-! ## A round is reversible -/

theorem crcRound_of_low_set {r : Word32} (h : r.getLsbD 0 = true) :
    crcRound r = (r >>> 1) ^^^ Config.CRC_POLY := if_pos h

theorem crcRound_of_low_clear {r : Word32} (h : r.getLsbD 0 = false) : crcRound r = r >>> 1 :=
  if_neg (Bool.eq_false_iff.mp h)

/-- R110: the polynomial's top bit is set and the shift clears that place, so it shows which way the test went. -/
theorem getLsbD_crcRound_top (r : Word32) : (crcRound r).getLsbD 31 = r.getLsbD 0 := by
  cases h : r.getLsbD 0 with
  | true => simp [crcRound_of_low_set h]
  | false => simp [crcRound_of_low_clear h]

/-- With the test known, a round is a shift and a fixed XOR: it keeps every bit but the one tested. -/
theorem ushiftRight_eq_of_crcRound_eq {r t : Word32} (hlow : r.getLsbD 0 = t.getLsbD 0) (h : crcRound r = crcRound t) :
    r >>> 1 = t >>> 1 := by
  cases ht : t.getLsbD 0 with
  | true =>
    rw [crcRound_of_low_set (hlow.trans ht), crcRound_of_low_set ht] at h
    exact (BitVec.xor_left_inj _).mp h
  | false => rwa [crcRound_of_low_clear (hlow.trans ht), crcRound_of_low_clear ht] at h

theorem crcRound_injective : Function.Injective crcRound := by
  intro r t h
  have hlow : r.getLsbD 0 = t.getLsbD 0 := by
    rw [← getLsbD_crcRound_top, h, getLsbD_crcRound_top]
  have hshift := ushiftRight_eq_of_crcRound_eq hlow h
  refine BitVec.eq_of_getLsbD_eq fun k _ => ?_
  cases k with
  | zero => exact hlow
  | succ k => simpa [Nat.add_comm] using congrArg (·.getLsbD k) hshift

theorem crcRound_bijective : Function.Bijective crcRound := Finite.injective_iff_bijective.mp crcRound_injective

theorem crcRounds_eq_iterate (k : Nat) : crcRounds k = crcRound^[k] := by
  induction k with
  | zero => rfl
  | succ k ih => exact congrArg (· ∘ crcRound) ih

theorem crcRounds_bijective (k : Nat) : Function.Bijective (crcRounds k) := by
  rw [crcRounds_eq_iterate]
  exact crcRound_bijective.iterate k

/-! ## A byte -/

theorem xor_right_involutive (x : Word32) : Function.Involutive (· ^^^ x) := fun r => by simp

/-- R119: the byte enters by an XOR, and eight rounds follow. -/
theorem crcByte_bijective (b : Byte) : Function.Bijective fun r => crcByte r b :=
  (crcRounds_bijective 8).comp (xor_right_involutive (zext32 b)).bijective

/-- R119: the byte enters by the XOR alone. -/
theorem crcByte_eq_crcByte_zero (r : Word32) (b : Byte) : crcByte r b = crcByte (r ^^^ zext32 b) 0x00 :=
  congrArg (crcRounds 8) BitVec.xor_zero.symm

theorem zext32_injective : Function.Injective zext32 := fun a b h => by
  have htoNat := congrArg BitVec.toNat h
  rw [zext32_toNat, zext32_toNat] at htoNat
  exact BitVec.eq_of_toNat_eq htoNat

/-- Different bytes take a register value to different values. -/
theorem crcByte_byte_injective (r : Word32) : Function.Injective (crcByte r) := fun _ _ h =>
  zext32_injective ((BitVec.xor_right_inj _).mp ((crcRounds_bijective 8).injective h))

/-- R114: of two bytes, one at least moves the register. -/
theorem exists_crcByte_ne (r : Word32) : ∃ b, crcByte r b ≠ r := by
  by_contra! hfixed
  have hbytes : (0x00 : Byte) = 0x01 := crcByte_byte_injective r ((hfixed 0x00).trans (hfixed 0x01).symm)
  exact absurd hbytes (by decide)

/-! ## The byte reversal -/

theorem extractLsb'_byte_toNat (v : Word32) (k : Nat) : (v.extractLsb' k 8).toNat = v.toNat / 2 ^ k % 256 := by
  rw [BitVec.extractLsb'_toNat, Nat.shiftRight_eq_div_pow]

/-- R116: the four lengths, each with the values it is for. -/
theorem byteReverse_cases (v : Word32) :
    (v.toNat < 0x100 ∧ byteReverse v = [v.extractLsb' 0 8]) ∨
    (0x100 ≤ v.toNat ∧ v.toNat < 0x10000 ∧ byteReverse v = [v.extractLsb' 0 8, v.extractLsb' 8 8]) ∨
    (0x10000 ≤ v.toNat ∧ v.toNat < 0x1000000 ∧
      byteReverse v = [v.extractLsb' 0 8, v.extractLsb' 8 8, v.extractLsb' 16 8]) ∨
    (0x1000000 ≤ v.toNat ∧
      byteReverse v = [v.extractLsb' 0 8, v.extractLsb' 8 8, v.extractLsb' 16 8, v.extractLsb' 24 8]) := by
  unfold byteReverse byteReverseLength
  split_ifs with h1 h2 h3
  · exact .inl ⟨h1, rfl⟩
  · exact .inr (.inl ⟨Nat.le_of_not_lt h1, h2, rfl⟩)
  · exact .inr (.inr (.inl ⟨Nat.le_of_not_lt h2, h3, rfl⟩))
  · exact .inr (.inr (.inr ⟨Nat.le_of_not_lt h3, rfl⟩))

theorem byteReverse_length_pos (v : Word32) : 1 ≤ (byteReverse v).length := by
  obtain ⟨-, h⟩ | ⟨-, -, h⟩ | ⟨-, -, h⟩ | ⟨-, h⟩ := byteReverse_cases v <;> simp [h]

theorem byteReverse_length_le (v : Word32) : (byteReverse v).length ≤ 4 := List.length_take_le' _ _

/-- R116: no byte above those taken is set. -/
theorem byteReverse_littleEndian (v : Word32) :
    (byteReverse v).foldr (fun b n => b.toNat + 256 * n) 0 = v.toNat := by
  have := v.isLt
  obtain ⟨_, h⟩ | ⟨_, _, h⟩ | ⟨_, _, h⟩ | ⟨_, h⟩ := byteReverse_cases v <;>
    simp only [h, List.foldr_cons, List.foldr_nil, extractLsb'_byte_toNat] <;> omega

/-- R116: with nothing above it, a byte is zero for the values that do not reach its place. -/
theorem extractLsb'_byte_eq_zero_iff {v : Word32} {k : Nat} (hhigh : v.toNat < 2 ^ k * 256) :
    v.extractLsb' k 8 = 0x00 ↔ v.toNat < 2 ^ k := by
  have hfits : v.toNat / 2 ^ k < 256 := Nat.div_lt_of_lt_mul hhigh
  rw [BitVec.toNat_eq, extractLsb'_byte_toNat, Nat.mod_eq_of_lt hfits]
  exact Nat.div_eq_zero_iff_lt (Nat.two_pow_pos k)

theorem extractLsb'_byte_ne_zero {v : Word32} {k : Nat} (hlow : 2 ^ k ≤ v.toNat) (hhigh : v.toNat < 2 ^ k * 256) :
    v.extractLsb' k 8 ≠ 0x00 := fun hzero =>
  Nat.not_lt_of_le hlow ((extractLsb'_byte_eq_zero_iff hhigh).mp hzero)

/-- R116: the last byte is the top byte of the value. -/
theorem byteReverse_getLast?_ne_zero {v : Word32} (hlong : 1 < (byteReverse v).length) :
    (byteReverse v).getLast? ≠ some 0x00 := by
  obtain ⟨_, h⟩ | ⟨hlow, hhigh, h⟩ | ⟨hlow, hhigh, h⟩ | ⟨hlow, h⟩ := byteReverse_cases v
  · simp [h] at hlong
  · simpa [h] using extractLsb'_byte_ne_zero (k := 8) hlow hhigh
  · simpa [h] using extractLsb'_byte_ne_zero (k := 16) hlow hhigh
  · simpa [h] using extractLsb'_byte_ne_zero (k := 24) hlow v.isLt

theorem byteReverse_length_eq_four_iff (v : Word32) : (byteReverse v).length = 4 ↔ v.extractLsb' 24 8 ≠ 0x00 := by
  rw [ne_eq, extractLsb'_byte_eq_zero_iff v.isLt, Nat.not_lt]
  obtain ⟨_, h⟩ | ⟨_, _, h⟩ | ⟨_, _, h⟩ | ⟨hlow, h⟩ := byteReverse_cases v
  case inr.inr.inr => simpa [h] using hlow
  all_goals
    simp only [h, List.length_cons, List.length_nil]
    omega

/-! ## The statements -/

/-- Settles O16: two bytes give two values, since the rounds are reversible, so not both are the register's. -/
theorem crcUpdProcessesOneByte : Obligations.CrcUpdProcessesOneByte := by
  refine ⟨fun b rest => decodeOfEncodeGivesTheOperation (.crcUpd b) rest rfl, fun _ => rfl, execCrcUpd_eq,
    fun bs s hinit => ?run, exists_crcByte_ne, by decide⟩
  case run =>
    have hfold : crc32Reflected bs = bs.foldl crcByte s.crc := by
      rw [hinit]
      rfl
    rw [hfold]
    exact issueAll_map_upd (put := s.withCrc) (fun b x results => execCrcUpd_eq b (s.withCrc x results)) bs s.crc
      s.results

/-- Settles O19: a round is reversible, and a byte is an XOR and eight rounds. -/
theorem crcLaws : Obligations.CrcLaws :=
  ⟨crcRound_bijective, crcByte_bijective, crcByte_eq_crcByte_zero, rfl, by decide +kernel, by decide +kernel,
    by decide +kernel, by decide +kernel⟩

/-- Settles O20: one case for each length. -/
theorem byteReverseIsTheFewestLittleEndianBytes : Obligations.ByteReverseIsTheFewestLittleEndianBytes := fun v =>
  ⟨rfl, byteReverse_length_pos v, byteReverse_length_le v, byteReverse_littleEndian v, byteReverse_getLast?_ne_zero,
    byteReverse_length_eq_four_iff v⟩

/-- Settles O15. -/
theorem crcInitLoadsTheInitialValue : Obligations.CrcInitLoadsTheInitialValue :=
  ⟨fun rest => decodeOfEncodeGivesTheOperation .crcInit rest rfl, execCrcInit_eq⟩

/-- Settles O17. -/
theorem crcReadsReturnTheRegister : Obligations.CrcReadsReturnTheRegister :=
  ⟨fun rest => decodeOfEncodeGivesTheOperation .crcRd rest rfl,
    fun rest => decodeOfEncodeGivesTheOperation .crcBrev rest rfl, fun _ => rfl, fun _ => rfl,
    by decide, by decide, by decide, by decide⟩

end Sys2Proof.Machine

/-! SUPPORT. The encode operations (spec/42_frame_encode.md R125 to R130): what the channel's answer leaves, and the one
shape that every frame of the encoder has. -/

namespace Sys2Proof.Machine

/-! ## The channel's answer to a frame (R127) -/

theorem sendFrame_accepted (F : List Byte) {s : State} {more : List TxAnswer} (h : s.txAnswers = .ok :: more) :
    sendFrame F s = .next { s with
      outbound := s.outbound ++ [F], txAnswers := more, results := s.results ++ [.ok .nothing] } := by
  rw [sendFrame_eq, txAnswer_listed h, h]
  rfl

theorem sendFrame_cut (F : List Byte) {s : State} {sent : Nat} {more : List TxAnswer}
    (h : s.txAnswers = .ioError sent :: more) :
    sendFrame F s = .next { s with
      outbound := s.outbound ++ [F.take sent], txAnswers := more, results := s.results ++ [.fault .channelIOError] } := by
  rw [sendFrame_eq, txAnswer_listed h, h]
  rfl

/-- Settles O21: `ENC.BASIC` sends its frame, and either answer leaves what R127 says. -/
theorem encBasicSendsItsFrame : Obligations.EncBasicSendsItsFrame :=
  ⟨fun addr cm pm rest => decodeOfEncodeGivesTheOperation (.encBasic addr cm pm) rest rfl,
    fun _ _ _ _ => ⟨fun _ hok => sendFrame_accepted _ hok, fun _ _ herror => sendFrame_cut _ herror⟩⟩

/-- Settles O22: `EncodeRefused` is tested first, and an APDU that passes is sent as any frame is. -/
theorem encApduSendsItsFrameOrRefuses : Obligations.EncApduSendsItsFrameOrRefuses := by
  refine ⟨fun addr A rest hfits => ?_, fun addr A s => ⟨fun hfits => ?_, fun hlong => ?_⟩⟩
  · exact decodeOfEncodeGivesTheOperation (.encApdu addr A) rest (decide_eq_true hfits)
  · rw [execEncApdu_fits hfits]
    exact ⟨fun _ hok => sendFrame_accepted _ hok, fun _ _ herror => sendFrame_cut _ herror⟩
  · exact execEncApdu_refused hlong addr s

/-! ## The shape of every frame (R125, R126) -/

/-- A frame with the control bytes `x` and `y` and then the body `A`. -/
def commandFrame (c : Cfg) (addr x y : Byte) (A : List Byte) : List Byte :=
  withChecksum
    ([c.start, addr, hi8 (apduLengthField A), lo8 (apduLengthField A), c.cmt, x, y] ++ A ++ [c.endMark])

theorem encBasicFrame_eq_commandFrame (c : Cfg) (addr cm pm : Byte) :
    encBasicFrame c addr cm pm = commandFrame c addr cm pm [] := rfl

theorem encApduFrame_eq_commandFrame (c : Cfg) (addr : Byte) (A : List Byte) :
    encApduFrame c addr A = commandFrame c addr c.actrl1 c.actrl2 A := rfl

/-- A basic frame is one with an empty body. -/
theorem EncoderFrame.exists_commandFrame {c : Cfg} {F : List Byte} (h : EncoderFrame c F) :
    ∃ addr x y A, A.length ≤ Config.APDU_MAX ∧ F = commandFrame c addr x y A := by
  rcases h with ⟨addr, cm, pm, rfl⟩ | ⟨addr, A, hfits, rfl⟩
  · exact ⟨addr, cm, pm, [], Nat.zero_le _, encBasicFrame_eq_commandFrame c addr cm pm⟩
  · exact ⟨addr, c.actrl1, c.actrl2, A, hfits, encApduFrame_eq_commandFrame c addr A⟩

theorem byteAt_append_singleton (P : List Byte) (b : Byte) : byteAt (P ++ [b]) P.length = b := by simp [byteAt]

theorem withChecksum_length (P : List Byte) : (withChecksum P).length = P.length + 1 := List.length_append ..

/-- The last byte is the checksum of all before it. -/
theorem withChecksum_verifies (P : List Byte) :
    byteAt (withChecksum P) ((withChecksum P).length - 1) = bcc ((withChecksum P).take ((withChecksum P).length - 1)) := by
  rw [withChecksum_length, Nat.add_sub_cancel, withChecksum, byteAt_append_singleton, List.take_left]

section
variable (c : Cfg) (addr x y : Byte) (A : List Byte)

theorem commandFrame_length : (commandFrame c addr x y A).length = A.length + 9 := by
  simp [commandFrame, withChecksum_length]

theorem byteAt_commandFrame_start : byteAt (commandFrame c addr x y A) 0 = c.start := rfl

theorem byteAt_commandFrame_cmt : byteAt (commandFrame c addr x y A) 4 = c.cmt := rfl

theorem byteAt_commandFrame_end : byteAt (commandFrame c addr x y A) (A.length + 7) = c.endMark := by
  rw [commandFrame, withChecksum, byteAt_append_left (by simp)]
  exact byteAt_append_singleton (_ ++ A) c.endMark

variable {A} in
/-- R83: the length field counts the body and the three bytes before it; it does not wrap (R126). -/
theorem frameLength_commandFrame (h : A.length ≤ Config.APDU_MAX) :
    frameLength (commandFrame c addr x y A) = A.length + 3 := by
  show lengthField (hi8 (apduLengthField A)) (lo8 (apduLengthField A)) = _
  rw [lengthField, be16_hi8_lo8, apduLengthField, BitVec.toNat_ofNat]
  exact Nat.mod_eq_of_lt (Nat.lt_of_le_of_lt (Nat.add_le_add_right h 3) (by decide))

variable {A} in
theorem commandFrame_valid (h : A.length ≤ Config.APDU_MAX) : validFrame c (commandFrame c addr x y A) = true := by
  have hlength := commandFrame_length c addr x y A
  have hfield := frameLength_commandFrame c addr x y h
  refine (validFrame_iff _ _).mpr ⟨by omega, by omega, byteAt_commandFrame_start c addr x y A, ?_,
    withChecksum_verifies _⟩
  rw [hlength]
  exact byteAt_commandFrame_end c addr x y A

end

/-- R130, R37: a frame of the encoder is valid. -/
theorem EncoderFrame.valid {c : Cfg} {F : List Byte} (h : EncoderFrame c F) : validFrame c F = true := by
  obtain ⟨addr, x, y, A, hfits, rfl⟩ := h.exists_commandFrame
  exact commandFrame_valid c addr x y hfits

/-- R130: a frame of the encoder is a command. -/
theorem EncoderFrame.cmt {c : Cfg} {F : List Byte} (h : EncoderFrame c F) : byteAt F 4 = c.cmt := by
  obtain ⟨addr, x, y, A, _, rfl⟩ := h.exists_commandFrame
  exact byteAt_commandFrame_cmt c addr x y A

/-- Settles O24: every frame of the encoder is a valid frame and a command. -/
theorem encodedFramesAreWellFormed : Obligations.EncodedFramesAreWellFormed := by
  intro c F (hF : EncoderFrame c F)
  obtain ⟨_, hlength, hstart, hend, hbcc⟩ := (validFrame_iff c F).mp hF.valid
  have hfield : frameLength F = F.length - 6 := by omega
  exact ⟨validFrame_length hF.valid, hstart, hend, hfield, hF.cmt, hbcc.symm⟩

end Sys2Proof.Machine

/-! SUPPORT. A whole decode from the issue of `DEC` on (spec/43_frame_decode.md R143 to R152): the bytes stored one after the
other, the header, the rest of a valid frame; and from it the round trip of the codec (spec/42_frame_encode.md R131). -/

namespace Sys2Proof.Machine

/-! ## A state in the middle of a decode -/

/-- `s` with its decoder in a phase, the bytes `C` received and `n` more to come. -/
def State.withDecode (s : State) (phase : Phase) (ack : Bool) (C : List Byte) (n : Nat) : State :=
  { s with
    dph := phase, dack := ack, derr := 0x00, rxbuf := Memory.ofBytes C, rxLen := count17 C.length, dcnt := count17 n }

/-- The state in which the host has the operations `rest` still to issue (R77). -/
def State.withOps (s : State) (rest : List Byte) : State := { s with ops := rest }

/-- The state in which the channel's next `n` bytes are taken (R52). -/
def State.consumeBytes (s : State) (n : Nat) (more : List RxAnswer) : State :=
  { s with inbound := more, rxPos := s.rxPos + n }

@[simp] theorem withDecode_cfg (s : State) (phase : Phase) (ack : Bool) (C : List Byte) (n : Nat) :
    (s.withDecode phase ack C n).cfg = s.cfg := rfl

@[simp] theorem withDecode_dack (s : State) (phase : Phase) (ack : Bool) (C : List Byte) (n : Nat) :
    (s.withDecode phase ack C n).dack = ack := rfl

theorem consumeBytes_consumeBytes (s : State) (m n : Nat) (a b : List RxAnswer) :
    (s.consumeBytes m a).consumeBytes n b = s.consumeBytes (n + m) b := by
  simp only [State.consumeBytes, Nat.add_assoc, Nat.add_comm n]

theorem count17_succ (n : Nat) : count17 (n + 1) = count17 n + 1 := BitVec.ofNat_add ..

theorem count17_length_toNat {c : Cfg} {C : List Byte} (h : C.length ≤ c.rxCap) : (count17 C.length).toNat = C.length := by
  have hcap := rxCap_bounds c
  exact count17_toNat (by omega)

theorem tick_of_empty {s : State} (h : s.resetLine = []) : tick s = s := by
  cases s
  simp_all [tick]

theorem step_busy_of_empty {s : State} (hline : s.resetLine = []) (hbusy : s.dph.busy = true) :
    step s = decoderStep s := by
  rw [step_busy (by simp [hline]) hbusy, tick_of_empty hline]

theorem step_quiet_of_empty {s : State} (hline : s.resetLine = []) (hquiet : s.dph.busy = false) :
    step s = hostStep s := by
  rw [step_quiet (by simp [hline]) hquiet, tick_of_empty hline]

/-! ## The bytes of a phase -/

/-- R144, R150: one byte is stored after those that are there. -/
theorem step_withDecode {s : State} {phase : Phase} {ack : Bool} {C : List Byte} {n : Nat} {b : Byte}
    {more : List RxAnswer} (hline : s.resetLine = []) (hbusy : phase.busy = true) (hin : s.inbound = .byte b :: more)
    (hroom : C.length < s.cfg.rxCap) :
    step (s.withDecode phase ack C (n + 1)) = afterByte ((s.consume more).withDecode phase ack (C ++ [b]) n) := by
  have hlength : (count17 C.length).toNat = C.length := count17_length_toNat (Nat.le_of_lt hroom)
  have hstored : (((s.withDecode phase ack C (n + 1)).consume more).store b)
      = (s.consume more).withDecode phase ack (C ++ [b]) n := by
    simp only [State.store, State.consume, State.withDecode, hlength, Memory.write_ofBytes, List.length_append,
      List.length_singleton, count17_succ, BitVec.add_sub_cancel]
  rw [step_busy_of_empty (s := s.withDecode phase ack C (n + 1)) hline hbusy,
    decoderStep_store (s := s.withDecode phase ack C (n + 1)) hin (hlength.symm ▸ hroom), hstored]

theorem afterByte_more {s : State} (h : s.dcnt ≠ 0) : afterByte s = .next s := if_neg h

theorem afterByte_validateFrame {s : State} (hcnt : s.dcnt = 0) (hd : s.dph = .tail) : afterByte s = validateFrame s := by
  simp [afterByte, hcnt, hd]

theorem count17_ne_zero {n : Nat} (hpos : n ≠ 0) (h : n < 131072) : count17 n ≠ 0 := fun hzero =>
  hpos ((count17_toNat h).symm.trans (congrArg BitVec.toNat hzero))

/-- R144, R150: bytes that are not the last of their phase are stored, and nothing else happens. -/
theorem steps_withDecode (phase : Phase) (ack : Bool) (bs C : List Byte) (n : Nat) {s : State}
    {more : List RxAnswer} (hline : s.resetLine = []) (hbusy : phase.busy = true)
    (hin : s.inbound = delivered bs ++ more) (hroom : C.length + bs.length ≤ s.cfg.rxCap) (hpos : n ≠ 0)
    (hsmall : bs.length + n < 131072) :
    steps bs.length (s.withDecode phase ack C (bs.length + n)) =
      .next ((s.consumeBytes bs.length more).withDecode phase ack (C ++ bs) n) := by
  induction bs generalizing s C with
  | nil =>
    have hmore : s.inbound = more := hin
    subst hmore
    simp only [List.length_nil, steps_zero, Nat.zero_add, List.append_nil]
    rfl
  | cons b bs ih =>
    simp only [List.length_cons] at hroom hsmall ⊢
    have hstep : step (s.withDecode phase ack C (bs.length + n + 1)) =
        .next ((s.consume (delivered bs ++ more)).withDecode phase ack (C ++ [b]) (bs.length + n)) :=
      (step_withDecode hline hbusy hin (by omega)).trans
        (afterByte_more (count17_ne_zero (n := bs.length + n) (by omega) (by omega)))
    have hrest := ih (C ++ [b]) (s := s.consume (delivered bs ++ more)) hline rfl
      (by simp only [State.consume, List.length_append, List.length_singleton]; omega) (by omega)
    rw [Nat.add_right_comm, steps_succ _ hstep, hrest, List.append_assoc]
    simp only [State.consumeBytes, State.consume, Nat.add_assoc, Nat.add_comm 1]
    rfl

/-! ## The header -/

/-- R143: `DEC` starts the decoder. -/
theorem step_dec {s : State} {rest : List Byte} (hline : s.resetLine = []) (hquiet : s.dph.busy = false)
    (hops : s.ops = 0x40 :: rest) : step s = .next ((s.withOps rest).withDecode .hdr false [] 5) := by
  rw [step_quiet_of_empty hline hquiet, hostStep_op (i := .dec) (rest := rest) (by rw [hops]; rfl)]
  rfl

/-- R143 to R145: `DEC` and five bytes of the channel, and the corrected header is checked. -/
theorem steps_dec_header {s : State} {rest : List Byte} {h0 h1 h2 h3 h4 : Byte} {more : List RxAnswer}
    (hline : s.resetLine = []) (hquiet : s.dph.busy = false) (hops : s.ops = 0x40 :: rest)
    (hin : s.inbound = delivered [h0, h1, h2, h3, h4] ++ more) :
    steps 6 s =
      if h0 = Config.ACK then
        checkStart (((s.withOps rest).consumeBytes 5 more).withDecode .hdr true [h1, h2, h3, h4] 0)
      else checkStart (((s.withOps rest).consumeBytes 5 more).withDecode .hdr false [h0, h1, h2, h3, h4] 0) := by
  have hcap : 9 ≤ s.cfg.rxCap := (rxCap_bounds s.cfg).1
  have hfour : steps 4 ((s.withOps rest).withDecode .hdr false [] 5) =
      .next (((s.withOps rest).consumeBytes 4 (.byte h4 :: more)).withDecode .hdr false [h0, h1, h2, h3] 1) :=
    steps_withDecode .hdr false [h0, h1, h2, h3] [] 1 (s := s.withOps rest) hline rfl hin
      (Nat.le_trans (by simp) hcap) (by simp) (by simp)
  rw [steps_succ 5 (step_dec hline hquiet hops), steps_add 1 hfour, steps_one,
    step_busy_of_empty (s := ((s.withOps rest).consumeBytes 4 (.byte h4 :: more)).withDecode _ _ _ _) hline rfl]
  exact decoderStep_fifthByte rfl rfl rfl rfl rfl

/-! ## The rest of the frame -/

/-- R150: the bytes after the header are stored, and with the last of them the frame is validated. -/
theorem steps_tail {s : State} {ack : Bool} {C T : List Byte} {more : List RxAnswer} (hline : s.resetLine = [])
    (hin : s.inbound = delivered T ++ more) (hT : T ≠ []) (hfits : (C ++ T).length ≤ s.cfg.rxCap) :
    steps T.length (s.withDecode .tail ack C T.length) =
      validateFrame ((s.consumeBytes T.length more).withDecode .tail ack (C ++ T) 0) := by
  obtain ⟨bs, b, rfl⟩ := (List.eq_nil_or_concat' T).resolve_left hT
  have hin' : s.inbound = delivered bs ++ .byte b :: more := by simpa [delivered] using hin
  have hcap := rxCap_bounds s.cfg
  simp only [List.length_append, List.length_singleton] at hfits ⊢
  have hbytes := steps_withDecode .tail ack bs C 1 hline rfl hin' (by omega) (by decide) (by omega)
  have hlast := step_withDecode (s := s.consumeBytes bs.length (.byte b :: more)) (phase := .tail) (ack := ack)
    (C := C ++ bs) (n := 0) hline rfl rfl (by simp [State.consumeBytes]; omega)
  rw [steps_add 1 hbytes, steps_one, hlast, afterByte_validateFrame rfl rfl, List.append_assoc]
  rfl

/-! ## A valid frame -/

/-- R146 to R149: the corrected header of a valid frame that fits is accepted, and the rest of the frame is to come. -/
theorem checkStart_validFrame {s : State} {ack : Bool} {C T : List Byte} (hvalid : validFrame s.cfg (C ++ T) = true)
    (hfits : (C ++ T).length ≤ s.cfg.rxCap) (hheader : 4 ≤ C.length)
    (hack : ¬(ack = false ∧ s.cfg.ackAbsent = .desync)) :
    checkStart (s.withDecode .hdr ack C 0) = .next (s.withDecode .tail ack C T.length) := by
  obtain ⟨hlong, hlength, hstart, _⟩ := (validFrame_iff _ _).mp hvalid
  rw [frameLength_append _ hheader] at hlong hlength
  rw [byteAt_append_left (by omega)] at hstart
  rw [List.length_append] at hlength hfits
  have hn : (count17 C.length).toNat = C.length := count17_length_toNat (Nat.le_of_add_right_le hfits)
  rw [checkStart_ofBytes (C := C) rfl hheader, withDecode_cfg, withDecode_dack, if_neg (not_not.mpr hstart),
    if_neg hack, if_neg (by omega), if_neg (show ¬ frameLength C + 6 > s.cfg.rxCap by omega)]
  simp only [startTail, State.withDecode, hn, ← hlength, Nat.add_sub_cancel_left]

/-- R147: under `desync` a good start without an acknowledgment byte before it is refused. -/
theorem checkStart_ackMissing {s : State} {C : List Byte} (hheader : 4 ≤ C.length) (hstart : byteAt C 0 = s.cfg.start)
    (hmode : s.cfg.ackAbsent = .desync) :
    checkStart (s.withDecode .hdr false C 0) = decodeFail .ackMissing (s.withDecode .hdr false C 0) := by
  rw [checkStart_ofBytes (C := C) rfl hheader, withDecode_cfg, withDecode_dack, if_neg (not_not.mpr hstart),
    if_pos ⟨rfl, hmode⟩]

/-- R151, R152: a valid frame ends in `DONE`. -/
theorem validateFrame_validFrame {s : State} {ack : Bool} {F : List Byte} (hvalid : validFrame s.cfg F = true)
    (hfits : F.length ≤ s.cfg.rxCap) :
    validateFrame (s.withDecode .tail ack F 0) =
      .next (deliver (.ok (.count (count17 F.length))) (s.withDecode .done ack F 0)) := by
  obtain ⟨_, hlength, _, hend, hbcc⟩ := (validFrame_iff _ _).mp hvalid
  rw [validateFrame_ofBytes rfl (count17_length_toNat hfits) (by omega), withDecode_cfg,
    if_neg (not_not.mpr hend), if_neg (not_not.mpr hbcc.symm)]
  rfl

/-- A decode whose header is that of a valid frame that fits ends in `DONE` with the frame. -/
theorem steps_validFrame {s t : State} {ack : Bool} {C T : List Byte} {more : List RxAnswer}
    (hheader : steps 6 s = checkStart (t.withDecode .hdr ack C 0)) (hline : t.resetLine = [])
    (hin : t.inbound = delivered T ++ more) (hvalid : validFrame t.cfg (C ++ T) = true)
    (hfits : (C ++ T).length ≤ t.cfg.rxCap) (hC : 4 ≤ C.length) (hT : T ≠ [])
    (hack : ¬(ack = false ∧ t.cfg.ackAbsent = .desync)) :
    steps (T.length + 6) s =
      .next (deliver (.ok (.count (count17 (C ++ T).length)))
        ((t.consumeBytes T.length more).withDecode .done ack (C ++ T) 0)) := by
  rw [checkStart_validFrame hvalid hfits hC hack] at hheader
  rw [Nat.add_comm, steps_add _ hheader, steps_tail hline hin hT hfits,
    validateFrame_validFrame (s := t.consumeBytes T.length more) hvalid hfits]

/-- The first five bytes of a valid frame, and the rest, which is not empty. -/
theorem validFrame_header {c : Cfg} {F : List Byte} (h : validFrame c F = true) :
    ∃ h1 h2 h3 h4 T, F = c.start :: h1 :: h2 :: h3 :: h4 :: T ∧ T ≠ [] := by
  have hlength := validFrame_length h
  obtain ⟨_, _, hstart, _⟩ := (validFrame_iff c F).mp h
  obtain ⟨h0, h1, h2, h3, h4, hheader⟩ : ∃ h0 h1 h2 h3 h4, F.take 5 = [h0, h1, h2, h3, h4] := by
    match F.take 5, List.length_take_of_le (show 5 ≤ F.length by omega) with
    | [h0, h1, h2, h3, h4], _ => exact ⟨h0, h1, h2, h3, h4, rfl⟩
  have hF : F = [h0, h1, h2, h3, h4] ++ F.drop 5 := by rw [← hheader, List.take_append_drop]
  have hfirst : h0 = c.start := by rw [← hstart, hF]; rfl
  refine ⟨h1, h2, h3, h4, F.drop 5, hfirst ▸ hF, List.ne_nil_of_length_pos ?_⟩
  rw [List.length_drop]
  omega

/-! ## What `DEC` does with a valid frame (R131) -/

/-- `s` once `DEC` has returned the frame `F` with `n` bytes of the channel consumed (R152, R156). -/
def State.receivedFrame (s : State) (rest F : List Byte) (ack : Bool) (n : Nat) (more : List RxAnswer) : State :=
  deliver (.ok (.count (count17 F.length))) (((s.withOps rest).consumeBytes n more).withDecode .done ack F 0)

section
variable {s : State} {F rest : List Byte} {more : List RxAnswer} (hvalid : validFrame s.cfg F = true)
  (hfits : F.length ≤ s.cfg.rxCap) (hline : s.resetLine = []) (hquiet : s.dph.busy = false) (hops : s.ops = 0x40 :: rest)
include hvalid hline hquiet hops

include hfits in
/-- R145: after an acknowledgment byte the frame's first four bytes are the corrected header. -/
theorem steps_dec_afterAck (hin : s.inbound = delivered (0x06 :: F) ++ more) :
    steps (F.length + 2) s = .next (s.receivedFrame rest F true (F.length + 1) more) := by
  obtain ⟨h1, h2, h3, h4, T, rfl, _⟩ := validFrame_header hvalid
  have hheader := steps_dec_header (more := delivered (h4 :: T) ++ more) hline hquiet hops hin
  rw [if_pos rfl] at hheader
  have hframe := steps_validFrame hheader hline rfl hvalid hfits (Nat.le_refl 4) (List.cons_ne_nil _ _) (by simp)
  rwa [consumeBytes_consumeBytes] at hframe

include hfits in
/-- R147: under `realign` a frame without an acknowledgment byte is received all the same. -/
theorem steps_dec_realign (hmode : s.cfg.ackAbsent = .realign) (hin : s.inbound = delivered F ++ more) :
    steps (F.length + 1) s = .next (s.receivedFrame rest F false F.length more) := by
  obtain ⟨h1, h2, h3, h4, T, rfl, hT⟩ := validFrame_header hvalid
  have hheader := steps_dec_header (more := delivered T ++ more) hline hquiet hops hin
  rw [if_neg (start_ne_ack s.cfg)] at hheader
  have hack : ¬(false = false ∧ s.cfg.ackAbsent = .desync) := by simp [hmode]
  have hframe := steps_validFrame hheader hline rfl hvalid hfits (Nat.le_succ 4) hT hack
  rwa [consumeBytes_consumeBytes] at hframe

/-- R147: under `desync` a frame without an acknowledgment byte is refused once its header is there. -/
theorem steps_dec_desync (hmode : s.cfg.ackAbsent = .desync) (hin : s.inbound = delivered F ++ more) :
    steps 6 s =
      decodeFail .ackMissing
        (((s.withOps rest).consumeBytes 5 (delivered (F.drop 5) ++ more)).withDecode .hdr false (F.take 5) 0) := by
  obtain ⟨h1, h2, h3, h4, T, rfl, _⟩ := validFrame_header hvalid
  rw [steps_dec_header (more := delivered T ++ more) hline hquiet hops hin, if_neg (start_ne_ack s.cfg)]
  exact checkStart_ackMissing (s := (s.withOps rest).consumeBytes 5 _) (Nat.le_succ 4) rfl hmode

end

/-- Settles O32: a frame of the encoder is valid, and a valid frame that fits is received. -/
theorem encodedFramesAreReceived : Obligations.EncodedFramesAreReceived := by
  intro s F rest more (hF : EncoderFrame s.cfg F) hfits hline hquiet hops
  exact ⟨steps_dec_afterAck hF.valid hfits hline hquiet hops, steps_dec_realign hF.valid hfits hline hquiet hops,
    steps_dec_desync hF.valid hline hquiet hops⟩

end Sys2Proof.Machine

/-! SUPPORT. The single steps of the decoder (spec/43_frame_decode.md R143 to R156): `DEC` is issued, a byte is stored, the
last byte of the tail is validated, and the channel errs or stays silent. -/

namespace Sys2Proof.Machine

/-- Settles O25: `DEC` empties the buffer. -/
theorem decStartsTheDecoder : Obligations.DecStartsTheDecoder :=
  ⟨fun rest => decodeOfEncodeGivesTheOperation .dec rest rfl, fun s => ⟨_, execDec_eq s, rfl, fun _ => rfl⟩⟩

/-! ## The channel delivers a byte (R144, R150) -/

/-- A busy step on a delivered byte stores it, and then looks at the count. -/
theorem step_byte {s : State} {b : Byte} {more : List RxAnswer} (hlow : noReset s) (hbusy : s.dph.busy = true)
    (hin : s.inbound = .byte b :: more) (hroom : s.rxLen.toNat < s.cfg.rxCap) :
    step s = afterByte (((tick s).consume more).store b) :=
  (step_busy hlow hbusy).trans (decoderStep_store (s := tick s) hin hroom)

/-- Settles O26: a count other than 1 is not used up by the byte, so the store is all that happens. -/
theorem decoderStoresOneByte : Obligations.DecoderStoresOneByte := by
  intro s b more hlow hbusy hin hroom hcnt
  have hmore : s.dcnt - 1 ≠ 0 := by bv_omega
  refine ⟨_, (step_byte hlow hbusy hin hroom).trans (afterByte_more hmore), rfl, ?_, fun i hi => ?_⟩
  · exact Memory.read_write_same s.rxbuf _ b
  · exact Memory.read_write_other s.rxbuf b hi.symm

/-- Settles O28: the byte completes the frame, and R151 and R152 are tested on it in this order. -/
theorem lastTailByteIsValidated : Obligations.LastTailByteIsValidated := by
  intro s G b more hlow htail hb hn hpos hroom hcnt hin
  have hroom' : s.rxLen.toNat < s.cfg.rxCap := hn ▸ hroom
  have hzero : s.dcnt - 1 = 0 := by rw [hcnt]; rfl
  have hF := store_rxbuf_ofBytes (s := (tick s).consume more) b hb hn
  have hlength : (((tick s).consume more).store b).rxLen.toNat = (G ++ [b]).length := by
    rw [store_rxLen_toNat (s := (tick s).consume more) b hroom', List.length_append]
    exact congrArg (· + 1) hn
  have hlast : byteAt (G ++ [b]) ((G ++ [b]).length - 1) = b := by
    rw [List.length_append]
    exact byteAt_append_singleton G b
  have hbuffer : s.rxbuf.write s.rxLen.toNat b = Memory.ofBytes (G ++ [b]) := hF
  rw [step_byte hlow (by simp [htail, Phase.busy]) hin hroom',
    afterByte_validateFrame (s := ((tick s).consume more).store b) hzero htail,
    validateFrame_ofBytes hF hlength (by simpa using hpos), hlast]
  simp only [decodeFail_eq, decodeDone_eq, State.store, State.consume, tick_rxbuf, tick_rxLen, tick_dcnt, hbuffer, hzero]
  rfl

/-! ## The channel delivers no byte (R154, R155) -/

/-- Settles O29: R37 gives `DACK` in `HDR`. -/
theorem channelErrorEndsTheDecode : Obligations.ChannelErrorEndsTheDecode := by
  intro s more hlow hbusy hin
  refine ⟨?_, fun hhdr inv => ((phaseOk_hdr hhdr).mp inv.phase).dack⟩
  calc
    step s = decoderStep (tick s) := step_busy hlow hbusy
    _ = decodeFail .channelIOError { tick s with inbound := more } := decoderStep_error (s := tick s) hin

theorem steps_eq_of_step_eq {s : State} (h : step s = .next s) (n : Nat) : steps n s = .next s := by
  induction n with
  | zero => rfl
  | succ n ih => rw [steps_succ n h, ih]

/-- Settles O30: with no answer listed the step gives the same state again. -/
theorem decoderWaitsForTheChannel : Obligations.DecoderWaitsForTheChannel := by
  refine ⟨fun s hline hbusy hnone => ?_, fun s more hlow hbusy hin => ?_⟩
  · exact steps_eq_of_step_eq ((step_busy_of_empty hline hbusy).trans (decoderStep_empty hnone))
  · exact (step_busy hlow hbusy).trans (decoderStep_nothingYet (s := tick s) hin)

end Sys2Proof.Machine

/-! SUPPORT. Reading the received frame (spec/43_frame_decode.md R158, R159). -/

namespace Sys2Proof.Machine

/-- R37: a received frame is as long as its length field says. -/
theorem BlockInv.rxLen_done {s : State} (inv : BlockInv s) (h : s.dph = .done) :
    s.rxLen.toNat = frameLength s.received + 6 := by
  obtain ⟨_, hlength, _⟩ := (validFrame_iff _ _).mp (inv.doneOk h).frame
  rw [← inv.buffer.length, hlength]

/-- Settles O37: `IDLE` and `FAIL` are the quiet phases without a frame, and `DONE` holds a valid frame. -/
theorem rxLenReturnsTheCount : Obligations.RxLenReturnsTheCount := by
  refine ⟨fun rest => decodeOfEncodeGivesTheOperation .rxLen rest rfl, fun _ => rfl, fun s inv => ⟨?_, inv.rxLen_done⟩⟩
  rintro (h | h) <;> exact inv.rxLen_quiet (by simp [h, Phase.busy]) (by simp [h])

theorem execRxRd_done {s : State} (h : s.dph = .done) (i : Index24) :
    exec (.rxRd i) s =
      if i.toNat ≥ s.rxLen.toNat then raise .badIndex s else withByte s i.toNat fun b => answer (.byte b) s :=
  withFrame_done h _

/-- Settles O38: the phase is tested first, then the index. -/
theorem rxRdReadsTheIndexedByte : Obligations.RxRdReadsTheIndexedByte := by
  refine ⟨fun i1 i2 i3 _ => ⟨_, rfl, index24_toNat i1 i2 i3⟩, fun s i hd => ?_, fun s i hd hi => ?_,
    fun s i b hd hi hb => ?_⟩
  · exact withFrame_noFrame hd _
  · rw [execRxRd_done hd, if_pos hi]
    rfl
  · rw [execRxRd_done hd, if_neg (not_le.mpr hi), withByte_of_read hb]
    rfl

end Sys2Proof.Machine

/-! SUPPORT. The decoder as a function of the stream (spec/43_frame_decode.md R157): every way a decode of a stream can go,
told from the corrected header and the frame alone; from it the laws of R160; and that the machine's steps go the same way. -/

namespace Sys2Proof.Machine

/-! ## The checks of the header and of the frame -/

/-- The fault that R146 to R148 find in a corrected header, if they find one. -/
def headerFault (c : Cfg) (ack : Bool) (C : List Byte) : Option OpFault :=
  if byteAt C 0 ≠ c.start then some .badStart
  else if ack = false ∧ c.ackAbsent = .desync then some .ackMissing
  else if frameLength C < 3 then some .shortLength
  else if frameLength C + 6 > c.rxCap then some .tooLong
  else none

/-- The fault that R151 and R152 find in a whole frame, if they find one. -/
def frameFault (c : Cfg) (F : List Byte) : Option OpFault :=
  if byteAt F (F.length - 2) ≠ c.endMark then some .badEnd
  else if bcc (F.take (F.length - 1)) ≠ byteAt F (F.length - 1) then some .checksumMismatch
  else none

/-- How many bytes follow a corrected header (R149). -/
def tailLength (C : List Byte) : Nat := frameLength C + 6 - C.length

theorem headerFault_eq_none_iff (c : Cfg) (ack : Bool) (C : List Byte) :
    headerFault c ack C = none ↔ byteAt C 0 = c.start ∧ ¬(ack = false ∧ c.ackAbsent = .desync) ∧ 3 ≤ frameLength C ∧
      frameLength C + 6 ≤ c.rxCap := by
  unfold headerFault
  split_ifs with hstart hack hlong hroom
  all_goals simp only [false_iff, true_iff]
  · exact fun h => hstart h.1
  · exact fun h => h.2.1 hack
  · exact fun h => not_lt.mpr h.2.2.1 hlong
  · exact fun h => not_lt.mpr h.2.2.2 hroom
  · exact ⟨not_not.mp hstart, hack, not_lt.mp hlong, not_lt.mp hroom⟩

theorem headerFault_eq_some {c : Cfg} {ack : Bool} {C : List Byte} {f : OpFault} (h : headerFault c ack C = some f) :
    f = .badStart ∨ f = .ackMissing ∧ c.ackAbsent = .desync ∧ ack = false ∨ f = .shortLength ∨ f = .tooLong := by
  unfold headerFault at h
  split_ifs at h with _ hack
  all_goals cases h
  · exact .inl rfl
  · exact .inr (.inl ⟨rfl, hack.2, hack.1⟩)
  · exact .inr (.inr (.inl rfl))
  · exact .inr (.inr (.inr rfl))

theorem frameFault_eq_none_iff (c : Cfg) (F : List Byte) :
    frameFault c F = none ↔
      byteAt F (F.length - 2) = c.endMark ∧ byteAt F (F.length - 1) = bcc (F.take (F.length - 1)) := by
  unfold frameFault
  split_ifs with hend hbcc
  all_goals simp only [false_iff, true_iff]
  · exact fun h => hend h.1
  · exact fun h => hbcc h.2.symm
  · exact ⟨not_not.mp hend, (not_not.mp hbcc).symm⟩

theorem frameFault_eq_some {c : Cfg} {F : List Byte} {f : OpFault} (h : frameFault c F = some f) :
    f = .badEnd ∨ f = .checksumMismatch := by
  unfold frameFault at h
  split_ifs at h
  all_goals cases h
  · exact .inl rfl
  · exact .inr rfl

/-! ## The corrected header (R145) -/

/-- The bytes a decode consumes before the frame. -/
def ackBytes (ack : Bool) : List Byte := if ack then [Config.ACK] else []

/-- The corrected header that five bytes give: the last four after an acknowledgment byte, else all five. -/
inductive CorrectedHeader : Bool → List Byte → Prop where
  | stripped (h1 h2 h3 h4 : Byte) : CorrectedHeader true [h1, h2, h3, h4]
  | kept (h0 h1 h2 h3 h4 : Byte) (h : h0 ≠ Config.ACK) : CorrectedHeader false [h0, h1, h2, h3, h4]

theorem exists_correctedHeader {S : List Byte} (h : 5 ≤ S.length) :
    ∃ ack C T, CorrectedHeader ack C ∧ S = ackBytes ack ++ C ++ T := by
  match S, h with
  | h0 :: h1 :: h2 :: h3 :: h4 :: T, _ =>
    by_cases hack : h0 = Config.ACK
    · exact ⟨true, _, T, .stripped h1 h2 h3 h4, by rw [hack]; rfl⟩
    · exact ⟨false, _, T, .kept h0 h1 h2 h3 h4 hack, rfl⟩

section
variable {ack : Bool} {C : List Byte} (hC : CorrectedHeader ack C)
include hC

theorem CorrectedHeader.length : (ackBytes ack ++ C).length = 5 := by cases hC <;> rfl

theorem CorrectedHeader.length_ge : 4 ≤ C.length := by cases hC <;> simp

theorem CorrectedHeader.length_le : C.length ≤ 5 := by cases hC <;> simp

/-- The header and what follows it are as long as the length field says (R149). -/
theorem CorrectedHeader.length_add_tailLength : C.length + tailLength C = frameLength C + 6 := by
  have := hC.length_le
  unfold tailLength
  omega

theorem CorrectedHeader.drop (T : List Byte) : (ackBytes ack ++ C ++ T).drop 5 = T := by cases hC <;> rfl

theorem CorrectedHeader.stream_length (T : List Byte) : (ackBytes ack ++ C ++ T).length = 5 + T.length := by
  rw [List.length_append, hC.length]

/-- R145, R157: the function splits the stream as the decoder does. -/
theorem decodeStream_eq_after (c : Cfg) (T : List Byte) :
    decodeStream c (ackBytes ack ++ C ++ T) = decodeStreamAfter c (ackBytes ack ++ C ++ T) C ack := by
  have hlong : ¬ (ackBytes ack ++ C ++ T).length < 5 := by rw [hC.stream_length]; omega
  rw [decodeStream, if_neg hlong]
  cases hC with
  | stripped => rfl
  | kept h0 _ _ _ _ hack => exact if_neg hack

end

/-! ## Every way a decode of a stream can go (R157) -/

/-- What a decode makes of a stream: how it ends, and how many bytes it has consumed then. -/
inductive StreamDecode (c : Cfg) : List Byte → StreamOutcome × Nat → Prop where
  /-- Fewer than five bytes. -/
  | inHeader {S : List Byte} (h : S.length < 5) : StreamDecode c S (.waiting, S.length)
  | badHeader {ack : Bool} {C T : List Byte} {f : OpFault} (hC : CorrectedHeader ack C)
      (hf : headerFault c ack C = some f) : StreamDecode c (ackBytes ack ++ C ++ T) (.failed f ack, 5)
  /-- A good header, and fewer bytes than it announces. -/
  | inTail {ack : Bool} {C T : List Byte} (hC : CorrectedHeader ack C) (hgood : headerFault c ack C = none)
      (h : T.length < tailLength C) : StreamDecode c (ackBytes ack ++ C ++ T) (.waiting, 5 + T.length)
  | badFrame {ack : Bool} {C R T : List Byte} {f : OpFault} (hC : CorrectedHeader ack C)
      (hgood : headerFault c ack C = none) (hR : R.length = tailLength C) (hf : frameFault c (C ++ R) = some f) :
      StreamDecode c (ackBytes ack ++ C ++ (R ++ T)) (.failed f ack, 5 + R.length)
  | frame {ack : Bool} {C R T : List Byte} (hC : CorrectedHeader ack C) (hgood : headerFault c ack C = none)
      (hR : R.length = tailLength C) (hframe : frameFault c (C ++ R) = none) :
      StreamDecode c (ackBytes ack ++ C ++ (R ++ T)) (.frame (C ++ R) ack, 5 + R.length)

section
variable {c : Cfg} {ack : Bool} {C : List Byte} (hC : CorrectedHeader ack C)
include hC

theorem decodeStream_badHeader {f : OpFault} (hf : headerFault c ack C = some f) (T : List Byte) :
    decodeStream c (ackBytes ack ++ C ++ T) = (.failed f ack, 5) := by
  rw [decodeStream_eq_after hC]
  unfold headerFault at hf
  unfold decodeStreamAfter
  split_ifs at hf ⊢
  all_goals cases hf; rfl

variable (hgood : headerFault c ack C = none)
include hgood

theorem decodeStream_inTail {T : List Byte} (h : T.length < tailLength C) :
    decodeStream c (ackBytes ack ++ C ++ T) = (.waiting, 5 + T.length) := by
  obtain ⟨hstart, hack, hlong, hroom⟩ := (headerFault_eq_none_iff c ack C).mp hgood
  have hshort : (ackBytes ack ++ C ++ T).length < 5 + tailLength C := by rw [hC.stream_length]; omega
  rw [decodeStream_eq_after hC, decodeStreamAfter, if_neg (not_not.mpr hstart), if_neg hack, if_neg (not_lt.mpr hlong),
    if_neg (not_lt.mpr hroom), hC.stream_length]
  exact if_pos (hC.stream_length T ▸ hshort)

theorem decodeStream_whole {R : List Byte} (hR : R.length = tailLength C) (T : List Byte) :
    decodeStream c (ackBytes ack ++ C ++ (R ++ T)) =
      ((frameFault c (C ++ R)).elim (.frame (C ++ R) ack) (.failed · ack), 5 + R.length) := by
  obtain ⟨hstart, hack, hlong, hroom⟩ := (headerFault_eq_none_iff c ack C).mp hgood
  have hn : frameLength C + 6 = (C ++ R).length := by rw [List.length_append, hR, hC.length_add_tailLength]
  have ht : frameLength C + 6 - C.length = R.length := hR.symm
  have hwhole : ¬ (ackBytes ack ++ C ++ (R ++ T)).length < 5 + R.length := by
    rw [hC.stream_length, List.length_append]
    omega
  rw [decodeStream_eq_after hC, decodeStreamAfter, if_neg (not_not.mpr hstart), if_neg hack, if_neg (not_lt.mpr hlong),
    if_neg (not_lt.mpr hroom)]
  simp only [ht, hC.drop, List.take_left, if_neg hwhole]
  rw [hn, frameFault]
  split_ifs <;> rfl

end

/-- The function goes one of these ways. -/
theorem decodeStream_streamDecode (c : Cfg) (S : List Byte) : StreamDecode c S (decodeStream c S) := by
  by_cases hshort : S.length < 5
  · rw [decodeStream, if_pos hshort]
    exact .inHeader hshort
  · obtain ⟨ack, C, T, hC, rfl⟩ := exists_correctedHeader (not_lt.mp hshort)
    cases hheader : headerFault c ack C with
    | some f =>
      rw [decodeStream_badHeader hC hheader]
      exact .badHeader hC hheader
    | none =>
      by_cases htail : T.length < tailLength C
      · rw [decodeStream_inTail hC hheader htail]
        exact .inTail hC hheader htail
      · have hR : (T.take (tailLength C)).length = tailLength C := List.length_take_of_le (not_lt.mp htail)
        rw [← List.take_append_drop (tailLength C) T, decodeStream_whole hC hheader hR]
        cases hframe : frameFault c (C ++ T.take (tailLength C)) with
        | some f => exact .badFrame hC hheader hR hframe
        | none => exact .frame hC hheader hR hframe

/-- A stream goes one way only. -/
theorem StreamDecode.eq {c : Cfg} {S : List Byte} {o : StreamOutcome × Nat} (h : StreamDecode c S o) :
    decodeStream c S = o := by
  cases h with
  | inHeader h => exact if_pos h
  | badHeader hC hf => exact decodeStream_badHeader hC hf _
  | inTail hC hgood h => exact decodeStream_inTail hC hgood h
  | badFrame hC hgood hR hf => rw [decodeStream_whole hC hgood hR, hf]; rfl
  | frame hC hgood hR hframe => rw [decodeStream_whole hC hgood hR, hframe]; rfl

/-! ## The laws of R160 -/

section
variable {c : Cfg} {ack : Bool} {C R : List Byte} (hC : CorrectedHeader ack C)
include hC

/-- R37: what the checks of a decode have in common with the definition of a valid frame. -/
theorem validFrame_iff_checks (hack : ¬(ack = false ∧ c.ackAbsent = .desync)) :
    validFrame c (C ++ R) = true ∧ (C ++ R).length ≤ c.rxCap ↔
      headerFault c ack C = none ∧ R.length = tailLength C ∧ frameFault c (C ++ R) = none := by
  have h4 := hC.length_ge
  have hn := hC.length_add_tailLength
  rw [validFrame_iff, headerFault_eq_none_iff, frameFault_eq_none_iff, frameLength_append R h4,
    byteAt_append_left (by omega), List.length_append]
  constructor
  · rintro ⟨⟨hlong, hlength, hstart, hchecks⟩, hfits⟩
    exact ⟨⟨hstart, hack, hlong, by omega⟩, by omega, hchecks⟩
  · rintro ⟨⟨hstart, _, hlong, hroom⟩, hR, hchecks⟩
    exact ⟨⟨hlong, by omega, hstart, hchecks⟩, by omega⟩

/-- The bytes a decode consumes: the acknowledgment byte and the frame. -/
theorem CorrectedHeader.take_consumed (T : List Byte) :
    (ackBytes ack ++ C ++ (R ++ T)).take (5 + R.length) = ackBytes ack ++ (C ++ R) := by
  rw [← hC.length, ← List.length_append, ← List.append_assoc _ R T, List.take_left, List.append_assoc]

/-- What a decode leaves to the next one. -/
theorem CorrectedHeader.drop_consumed (T : List Byte) :
    (ackBytes ack ++ C ++ (R ++ T)).drop (5 + R.length) = T := by
  rw [← List.drop_drop, hC.drop, List.drop_left]

end

/-- A frame accepted without an acknowledgment byte is accepted under `realign`. -/
theorem realign_of_headerFault {c : Cfg} {C : List Byte} (hgood : headerFault c false C = none) :
    c.ackAbsent = .realign := by
  obtain ⟨_, hack, _⟩ := (headerFault_eq_none_iff c false C).mp hgood
  cases hmode : c.ackAbsent with
  | desync => exact absurd ⟨rfl, hmode⟩ hack
  | realign => rfl

/-- Settles O33. -/
theorem decodedFramesAreValid : Obligations.DecodedFramesAreValid := by
  intro c S F ack n h
  have hdecode := h ▸ decodeStream_streamDecode c S
  cases hdecode with
  | @frame _ C R T hC hgood hR hframe =>
    obtain ⟨_, hack, _⟩ := (headerFault_eq_none_iff c ack C).mp hgood
    obtain ⟨hvalid, hfits⟩ := (validFrame_iff_checks hC hack).mpr ⟨hgood, hR, hframe⟩
    refine ⟨hvalid, hfits, ?_, hC.take_consumed T, ?_⟩
    · rw [hC.stream_length, List.length_append]
      omega
    · rintro rfl
      exact realign_of_headerFault hgood

theorem decodeStream_validFrame {c : Cfg} {ack : Bool} {C R : List Byte} (hC : CorrectedHeader ack C)
    (hack : ¬(ack = false ∧ c.ackAbsent = .desync)) (hvalid : validFrame c (C ++ R) = true)
    (hfits : (C ++ R).length ≤ c.rxCap) (T : List Byte) :
    decodeStream c (ackBytes ack ++ C ++ (R ++ T)) = (.frame (C ++ R) ack, (C ++ R).length + (ackBytes ack).length) := by
  obtain ⟨hgood, hR, hframe⟩ := (validFrame_iff_checks hC hack).mp ⟨hvalid, hfits⟩
  have hconsumed : 5 + R.length = (C ++ R).length + (ackBytes ack).length := by
    rw [← hC.length, List.length_append, List.length_append]
    omega
  exact hconsumed ▸ (StreamDecode.frame hC hgood hR hframe).eq

/-- Settles O34: after the acknowledgment byte four bytes of the frame are its header, and without it five, the first of
which is `START` and so not `ACK`. -/
theorem validFramesAreAccepted : Obligations.ValidFramesAreAccepted := by
  intro c F T hvalid hfits
  obtain ⟨h1, h2, h3, h4, R, rfl, _⟩ := validFrame_header hvalid
  refine ⟨?_, fun hmode => ?_⟩
  · exact decodeStream_validFrame (.stripped c.start h1 h2 h3) (by simp) hvalid hfits T
  · exact decodeStream_validFrame (.kept c.start h1 h2 h3 h4 (start_ne_ack c)) (by simp [hmode]) hvalid hfits T

/-- R149: what a decode consumes whose frame is whole. -/
theorem CorrectedHeader.consumed {ack : Bool} {C : List Byte} (hC : CorrectedHeader ack C) :
    5 + tailLength C = if ack then frameLength C + 7 else frameLength C + 6 := by
  have hn := hC.length_add_tailLength
  cases hC with
  | stripped => simp at hn ⊢; omega
  | kept => simp at hn ⊢; omega

/-- R54: where the length field of a stream is. -/
theorem CorrectedHeader.frameLength_eq {ack : Bool} {C : List Byte} (hC : CorrectedHeader ack C) (T : List Byte) :
    frameLength C =
      if ack then lengthField (byteAt (ackBytes ack ++ C ++ T) 3) (byteAt (ackBytes ack ++ C ++ T) 4)
      else lengthField (byteAt (ackBytes ack ++ C ++ T) 2) (byteAt (ackBytes ack ++ C ++ T) 3) := by
  cases hC <;> rfl

/-- Settles O35: a fault of the header is found at its end, and a fault of the frame at its end. -/
theorem failedDecodesConsumeWhatTheRuleSays : Obligations.FailedDecodesConsumeWhatTheRuleSays := by
  intro c S f ack n h
  have hdecode := h ▸ decodeStream_streamDecode c S
  cases hdecode with
  | badHeader hC hf => exact .inl ⟨rfl, headerFault_eq_some hf⟩
  | @badFrame _ C R T _ hC hgood hR hf =>
    refine .inr ⟨frameFault_eq_some hf, ?_⟩
    rw [hR, hC.consumed, hC.frameLength_eq (R ++ T)]
    split_ifs <;> rfl

/-- R160 (e): bytes after the end of a decode. -/
theorem StreamDecode.append {c : Cfg} {S : List Byte} {o : StreamOutcome × Nat} (h : StreamDecode c S o)
    (hends : o.1 ≠ .waiting) (T : List Byte) : StreamDecode c (S ++ T) o := by
  cases h with
  | inHeader | inTail => exact absurd rfl hends
  | @badHeader _ _ T' _ hC hf => simpa only [List.append_assoc] using StreamDecode.badHeader (T := T' ++ T) hC hf
  | @badFrame _ _ _ T' _ hC hgood hR hf =>
    simpa only [List.append_assoc] using StreamDecode.badFrame (T := T' ++ T) hC hgood hR hf
  | @frame _ _ _ T' hC hgood hR hframe =>
    simpa only [List.append_assoc] using StreamDecode.frame (T := T' ++ T) hC hgood hR hframe

/-- R160 (a): a decode needs no byte beyond those it consumes. -/
theorem StreamDecode.take {c : Cfg} {S : List Byte} {o : StreamOutcome × Nat} (h : StreamDecode c S o)
    (hends : o.1 ≠ .waiting) : StreamDecode c (S.take o.2) o := by
  cases h with
  | inHeader | inTail => exact absurd rfl hends
  | badHeader hC hf =>
    rw [List.take_left' hC.length, ← List.append_nil (_ ++ _)]
    exact .badHeader hC hf
  | badFrame hC hgood hR hf =>
    rw [hC.take_consumed]
    simpa only [List.append_assoc, List.append_nil] using StreamDecode.badFrame (T := []) hC hgood hR hf
  | frame hC hgood hR hframe =>
    rw [hC.take_consumed]
    simpa only [List.append_assoc, List.append_nil] using StreamDecode.frame (T := []) hC hgood hR hframe

/-- Settles O36. -/
theorem laterBytesDoNotMatter : Obligations.LaterBytesDoNotMatter := by
  intro c S T hends
  have hdecode := decodeStream_streamDecode c S
  exact ⟨(hdecode.append hends T).eq, (hdecode.take hends).eq⟩

/-! ## The machine's steps go the same way -/

/-- R146 to R149: the machine finds the fault of the header, or begins the tail. -/
theorem checkStart_withDecode {s : State} {ack : Bool} {C : List Byte} (hC : CorrectedHeader ack C) :
    checkStart (s.withDecode .hdr ack C 0) =
      (headerFault s.cfg ack C).elim (.next (s.withDecode .tail ack C (tailLength C)))
        (decodeFail · (s.withDecode .hdr ack C 0)) := by
  have hcap := rxCap_bounds s.cfg
  have hle := hC.length_le
  have hn : (count17 C.length).toNat = C.length := count17_length_toNat (c := s.cfg) (by omega)
  have htail : startTail (frameLength C) (s.withDecode .hdr ack C 0)
      = .next (s.withDecode .tail ack C (tailLength C)) := by
    simp only [startTail, State.withDecode, hn, tailLength]
  rw [checkStart_ofBytes (C := C) rfl hC.length_ge, withDecode_cfg, withDecode_dack, htail, headerFault]
  split_ifs <;> rfl

/-- R151, R152: the machine finds the fault of the frame, or ends in `DONE`. -/
theorem validateFrame_withDecode {s : State} {ack : Bool} {F : List Byte} (hlong : 2 ≤ F.length)
    (hfits : F.length ≤ s.cfg.rxCap) :
    validateFrame (s.withDecode .tail ack F 0) =
      (frameFault s.cfg F).elim (decodeDone (s.withDecode .tail ack F 0))
        (decodeFail · (s.withDecode .tail ack F 0)) := by
  rw [validateFrame_ofBytes rfl (count17_length_toNat hfits) hlong, withDecode_cfg, frameFault]
  split_ifs <;> rfl

/-- R148: a frame whose header is good fits the buffer. -/
theorem CorrectedHeader.fits {c : Cfg} {ack : Bool} {C : List Byte} (hC : CorrectedHeader ack C)
    (hgood : headerFault c ack C = none) : C.length + tailLength C ≤ c.rxCap := by
  obtain ⟨_, _, _, hroom⟩ := (headerFault_eq_none_iff c ack C).mp hgood
  exact hC.length_add_tailLength.trans_le hroom

theorem delivered_append (S T : List Byte) : delivered (S ++ T) = delivered S ++ delivered T := List.map_append

section
variable {s : State} {rest : List Byte} {more : List RxAnswer} (hline : s.resetLine = []) (hquiet : s.dph.busy = false)
  (hops : s.ops = 0x40 :: rest)
include hline hquiet hops

/-- R144: fewer than five bytes leave the decoder in `HDR`. -/
theorem steps_dec_inHeader {S : List Byte} (hS : S.length < 5) (hin : s.inbound = delivered S ++ more) :
    steps (S.length + 1) s =
      .next (((s.withOps rest).consumeBytes S.length more).withDecode .hdr false S (5 - S.length)) := by
  have hcap := rxCap_bounds s.cfg
  have hbytes := steps_withDecode .hdr false S [] (5 - S.length) (s := s.withOps rest) (more := more) hline rfl hin
    (by simp only [List.length_nil, State.withOps]; omega) (by omega) (by omega)
  rw [Nat.add_sub_cancel' (Nat.le_of_lt hS)] at hbytes
  rw [steps_succ _ (step_dec hline hquiet hops), hbytes, List.nil_append]

variable {ack : Bool} {C : List Byte} (hC : CorrectedHeader ack C)
include hC

/-- R143 to R145: `DEC` and five bytes of the channel, and the corrected header is checked. -/
theorem steps_dec_checkStart {T : List Byte} (hin : s.inbound = delivered (ackBytes ack ++ C ++ T) ++ more) :
    steps 6 s =
      checkStart (((s.withOps rest).consumeBytes 5 (delivered T ++ more)).withDecode .hdr ack C 0) := by
  cases hC with
  | stripped => exact (steps_dec_header (more := delivered T ++ more) hline hquiet hops hin).trans (if_pos rfl)
  | kept _ _ _ _ _ hack =>
    exact (steps_dec_header (more := delivered T ++ more) hline hquiet hops hin).trans (if_neg hack)

/-- R146 to R148: a header with a fault ends the decode. -/
theorem steps_dec_badHeader {T : List Byte} {f : OpFault} (hf : headerFault s.cfg ack C = some f)
    (hin : s.inbound = delivered (ackBytes ack ++ C ++ T) ++ more) :
    steps 6 s =
      decodeFail f (((s.withOps rest).consumeBytes 5 (delivered T ++ more)).withDecode .hdr ack C 0) := by
  rw [steps_dec_checkStart hline hquiet hops hC hin, checkStart_withDecode hC]
  exact congrArg (Option.elim · _ _) hf

variable (hgood : headerFault s.cfg ack C = none)
include hgood

/-- R149: a good header leaves the decoder in `TAIL`. -/
theorem steps_dec_goodHeader {T : List Byte} (hin : s.inbound = delivered (ackBytes ack ++ C ++ T) ++ more) :
    steps 6 s =
      .next (((s.withOps rest).consumeBytes 5 (delivered T ++ more)).withDecode .tail ack C (tailLength C)) := by
  rw [steps_dec_checkStart hline hquiet hops hC hin, checkStart_withDecode hC]
  exact congrArg (Option.elim · _ _) hgood

/-- R150: fewer bytes than the header announces leave the decoder in `TAIL`. -/
theorem steps_dec_inTail {T : List Byte} (hT : T.length < tailLength C)
    (hin : s.inbound = delivered (ackBytes ack ++ C ++ T) ++ more) :
    steps (5 + T.length + 1) s =
      .next (((s.withOps rest).consumeBytes (5 + T.length) more).withDecode .tail ack (C ++ T)
        (tailLength C - T.length)) := by
  have hcap := rxCap_bounds s.cfg
  have hfits := hC.fits hgood
  have hbytes := steps_withDecode .tail ack T C (tailLength C - T.length)
    (s := (s.withOps rest).consumeBytes 5 (delivered T ++ more)) (more := more) hline rfl rfl
    (by simp only [State.consumeBytes, State.withOps]; omega) (by omega) (by omega)
  rw [Nat.add_sub_cancel' (Nat.le_of_lt hT), consumeBytes_consumeBytes, Nat.add_comm _ 5] at hbytes
  rw [Nat.add_right_comm, steps_add _ (steps_dec_goodHeader hline hquiet hops hC hgood hin), hbytes]

/-- R150 to R152: with the bytes the header announces the frame is whole, and it is refused or received. -/
theorem steps_dec_whole {R T : List Byte} (hR : R.length = tailLength C)
    (hin : s.inbound = delivered (ackBytes ack ++ C ++ (R ++ T)) ++ more) :
    let t := ((s.withOps rest).consumeBytes (5 + R.length) (delivered T ++ more)).withDecode .tail ack (C ++ R) 0
    steps (5 + R.length + 1) s = (frameFault s.cfg (C ++ R)).elim (decodeDone t) (decodeFail · t) := by
  have hsum := hC.length_add_tailLength
  have hge := hC.length_ge
  have hle := hC.length_le
  have hfits : (C ++ R).length ≤ s.cfg.rxCap := by
    rw [List.length_append, hR]
    exact hC.fits hgood
  have htail := steps_tail (s := (s.withOps rest).consumeBytes 5 (delivered (R ++ T) ++ more)) (ack := ack) (C := C)
    (more := delivered T ++ more) hline (by rw [delivered_append, List.append_assoc]; rfl)
    (List.ne_nil_of_length_pos (by omega)) hfits
  rw [consumeBytes_consumeBytes, Nat.add_comm _ 5] at htail
  rw [Nat.add_right_comm, steps_add _ (hR ▸ steps_dec_goodHeader hline hquiet hops hC hgood hin), htail]
  exact validateFrame_withDecode (by rw [List.length_append]; omega) hfits

end

/-- Settles O31: in each way a decode of a stream can go, the machine takes one step to issue `DEC` and one for each byte
consumed. -/
theorem decRunsAsTheStreamFunction : Obligations.DecRunsAsTheStreamFunction := by
  intro s rest S more hline hquiet hops hin
  have hdecode := decodeStream_streamDecode s.cfg S
  generalize decodeStream s.cfg S = o at hdecode ⊢
  cases hdecode with
  | inHeader hS => exact ⟨_, steps_dec_inHeader hline hquiet hops hS hin, rfl, rfl, rfl, rfl, rfl, rfl, rfl, rfl⟩
  | @badHeader ack C T f hC hf =>
    simp only [hC.drop]
    exact steps_dec_badHeader hline hquiet hops hC hf hin
  | @inTail ack C T hC hgood hT =>
    exact ⟨_, steps_dec_inTail hline hquiet hops hC hgood hT hin, (hC.stream_length T).symm, rfl, rfl, rfl, rfl, rfl, rfl,
      rfl⟩
  | @badFrame ack C R T f hC hgood hR hf =>
    have hsteps := steps_dec_whole hline hquiet hops hC hgood hR hin
    rw [hf] at hsteps
    simp only [hC.drop_consumed]
    exact hsteps
  | @frame ack C R T hC hgood hR hframe =>
    have hsteps := steps_dec_whole hline hquiet hops hC hgood hR hin
    rw [hframe] at hsteps
    simp only [hC.drop_consumed]
    exact hsteps

end Sys2Proof.Machine

/-! SUPPORT. The classifier (spec/44_classifier.md R170 to R185): what each `CLS` operation answers, told from the frame
that the buffer holds. -/

namespace Sys2Proof.Machine

/-! ## The status word (R175 to R177) -/

theorem statusWordOf_eq_none {F : List Byte} (hshort : F.length < 11) : statusWordOf F = none := if_pos hshort

theorem statusWordOf_eq_some {F : List Byte} (hlong : 11 ≤ F.length) :
    statusWordOf F = some (be16 (byteAt F (F.length - 4)) (byteAt F (F.length - 3))) :=
  if_neg (not_lt.mpr hlong)

theorem length_of_statusWordOf_eq_some {F : List Byte} {sw : Word16} (hsw : statusWordOf F = some sw) : 11 ≤ F.length := by
  by_contra hshort
  rw [statusWordOf_eq_none (not_le.mp hshort)] at hsw
  cases hsw

/-- R176: the three success words. -/
theorem swSuccess_eq (sw : Word16) : swSuccess sw = decide (sw = 0x9100 ∨ sw = 0x9000 ∨ sw = 0x91AF) := by
  simp [swSuccess]

/-- R176: the continuation word. -/
theorem swMore_eq (sw : Word16) : swMore sw = decide (sw = 0x91AF) := beq_eq_decide ..

/-- R7 (b): what a well-formed configuration's table of status words holds and what it does not. -/
theorem apduTable_entries (c : Cfg) :
    (c.apduTable.find 0x9100).isSome ∧ (c.apduTable.find 0x9000).isSome ∧ (c.apduTable.find 0x91AF).isSome ∧
      (c.apduTable.find 0x91AE).isSome ∧ c.apduTable.find 0x6A82 = none := by
  have h := c.wf
  simp only [RawCfg.wellFormed, RawCfg.apduTableOk, Bool.and_eq_true, Option.isNone_iff_eq_none, and_assoc] at h
  obtain ⟨_, h9100, h9000, h91AF, h91AE, h6A82, _⟩ := h
  exact ⟨h9100, h9000, h91AF, h91AE, h6A82⟩

section
variable {s : State} {F : List Byte} (hF : HoldsFrame s F)
include hF

theorem HoldsFrame.withStatusWord_short (hshort : F.length < 11) (k : Word16 → Result) :
    withStatusWord s k = .next (deliver (.fault .shortFrame) s) :=
  if_pos (hF.length ▸ hshort)

theorem HoldsFrame.withStatusWord_some {sw : Word16} (hsw : statusWordOf F = some sw) (k : Word16 → Result) :
    withStatusWord s k = k sw := by
  have hlong := length_of_statusWordOf_eq_some hsw
  rw [statusWordOf_eq_some hlong] at hsw
  cases hsw
  rw [withStatusWord, hF.length, if_neg (not_lt.mpr hlong), withBe16_ofBytes hF.buffer (by omega) (by omega)]

/-- R181, R183: the last offset that a rule accepts is that of the byte before END. -/
theorem HoldsFrame.offsetShort_iff (off : Byte) : offsetShort s off = true ↔ ¬ off.toNat ≤ F.length - 3 := by
  rw [offsetShort, hF.length, decide_eq_true_iff, not_le]

/-! ## What each operation answers -/

theorem execClsFields_frame (h9 : 9 ≤ F.length) :
    exec .clsFields s = .next (deliver (.ok (.fields (frameFields F))) s) := by
  have hread (i : Nat) (hi : i < F.length) (k : Byte → Result) : withByte s i k = k (byteAt F i) :=
    withByte_ofBytes hF.buffer hi k
  refine (withFrame_done hF.done _).trans ?_
  rw [hF.length, hread 1 (by omega), withBe16_ofBytes hF.buffer (by omega) (by omega), hread 4 (by omega),
    hread 5 (by omega), hread 6 (by omega), hread _ (by omega), hread _ (by omega)]
  rfl

theorem execClsTsucc_frame (h9 : 9 ≤ F.length) :
    exec .clsTsucc s = .next (deliver (.ok (.bool (isTransportSuccess s.cfg F))) s) :=
  (withFrame_done hF.done _).trans (withByte_ofBytes hF.buffer (by omega) _)

/-- R177: transport success is tested before the status word is looked for. -/
theorem execClsAsucc_frame (h9 : 9 ≤ F.length) :
    exec .clsAsucc s =
      if byteAt F 4 ≠ s.cfg.pmt then answer (.apduSuccess false false) s
      else withStatusWord s fun sw => answer (.apduSuccess (swSuccess sw) (swMore sw)) s :=
  (withFrame_done hF.done _).trans (withByte_ofBytes hF.buffer (by omega) _)

theorem execClsAsucc_noTransportSuccess (h9 : 9 ≤ F.length) (hmt : byteAt F 4 ≠ s.cfg.pmt) :
    exec .clsAsucc s = .next (deliver (.ok (.apduSuccess false false)) s) :=
  (execClsAsucc_frame hF h9).trans (if_pos hmt)

theorem execClsAsucc_short (h9 : 9 ≤ F.length) (hmt : byteAt F 4 = s.cfg.pmt) (hshort : F.length < 11) :
    exec .clsAsucc s = .next (deliver (.fault .shortFrame) s) := by
  rw [execClsAsucc_frame hF h9, if_neg (not_not.mpr hmt), hF.withStatusWord_short hshort]

theorem execClsAsucc_statusWord (hmt : byteAt F 4 = s.cfg.pmt) {sw : Word16} (hsw : statusWordOf F = some sw) :
    exec .clsAsucc s = .next (deliver (.ok (.apduSuccess (swSuccess sw) (swMore sw))) s) := by
  have hlong := length_of_statusWordOf_eq_some hsw
  rw [execClsAsucc_frame hF (by omega), if_neg (not_not.mpr hmt), hF.withStatusWord_some hsw, answer]

theorem execClsAdesc_short (hshort : F.length < 11) : exec .clsAdesc s = .next (deliver (.fault .shortFrame) s) :=
  (withFrame_done hF.done _).trans (hF.withStatusWord_short hshort _)

/-- R179: the status word is looked up whatever the message type is. -/
theorem execClsAdesc_statusWord {sw : Word16} (hsw : statusWordOf F = some sw) :
    exec .clsAdesc s =
      withEntry s s.cfg.apduTable sw (.undocumentedStatusWord sw) fun i => answer (.index i) s :=
  (withFrame_done hF.done _).trans (hF.withStatusWord_some hsw _)

theorem execClsAdesc_found {sw : Word16} {i : Nat} (hsw : statusWordOf F = some sw)
    (hi : s.cfg.apduTable.find sw = some i) : exec .clsAdesc s = .next (deliver (.ok (.index i)) s) :=
  (execClsAdesc_statusWord hF hsw).trans (withEntry_found hi _ _)

theorem execClsAdesc_missed {sw : Word16} (hsw : statusWordOf F = some sw) (hmiss : s.cfg.apduTable.find sw = none) :
    exec .clsAdesc s = .next (deliver (.fault (.undocumentedStatusWord sw)) s) :=
  (execClsAdesc_statusWord hF hsw).trans (withEntry_missed hmiss _ _)

/-- R181: one offset past the byte before END is enough for `ShortFrame`. -/
theorem execClsStat_short
    (hshort : ¬ (s.cfg.offSt0.toNat ≤ F.length - 3 ∧ s.cfg.offSt1.toNat ≤ F.length - 3 ∧
      s.cfg.offSt2.toNat ≤ F.length - 3)) :
    exec .clsStat s = .next (deliver (.fault .shortFrame) s) := by
  refine (withFrame_done hF.done _).trans (if_pos ?_)
  simpa only [Bool.or_eq_true, hF.offsetShort_iff, not_and_or, or_assoc] using hshort

/-- R181: each byte is looked up before the next one is read. -/
theorem execClsStat_inFrame (h9 : 9 ≤ F.length) (h0 : s.cfg.offSt0.toNat ≤ F.length - 3)
    (h1 : s.cfg.offSt1.toNat ≤ F.length - 3) (h2 : s.cfg.offSt2.toNat ≤ F.length - 3) :
    exec .clsStat s =
      withEntry s s.cfg.dispTable (byteAt F s.cfg.offSt0.toNat)
        (.unknownStatusCode .dispenser (byteAt F s.cfg.offSt0.toNat)) fun d =>
      withEntry s s.cfg.stackTable (byteAt F s.cfg.offSt1.toNat)
        (.unknownStatusCode .stacker (byteAt F s.cfg.offSt1.toNat)) fun k =>
      withEntry s s.cfg.captTable (byteAt F s.cfg.offSt2.toNat)
        (.unknownStatusCode .captureBox (byteAt F s.cfg.offSt2.toNat)) fun c =>
      answer (.status d k c) s := by
  have hread {off : Byte} (hoff : off.toNat ≤ F.length - 3) (k : Byte → Result) :
      withByte s off.toNat k = k (byteAt F off.toNat) := withByte_ofBytes hF.buffer (by omega) k
  refine (withFrame_done hF.done _).trans ((if_neg ?_).trans ?_)
  · simp only [Bool.or_eq_true, hF.offsetShort_iff, h0, h1, h2, not_true_eq_false, or_self, not_false_eq_true]
  · simp only [hread h0, hread h1, hread h2]

/-- R183: one offset past the byte before END is enough for `ShortFrame`. -/
theorem execClsErr_short
    (hshort : ¬ (s.cfg.offE1.toNat ≤ F.length - 3 ∧ s.cfg.offE0.toNat ≤ F.length - 3)) :
    exec .clsErr s = .next (deliver (.fault .shortFrame) s) := by
  refine (withFrame_done hF.done _).trans (if_pos ?_)
  simpa only [Bool.or_eq_true, hF.offsetShort_iff, not_and_or] using hshort

theorem execClsErr_inFrame (h9 : 9 ≤ F.length) (h1 : s.cfg.offE1.toNat ≤ F.length - 3)
    (h0 : s.cfg.offE0.toNat ≤ F.length - 3) :
    exec .clsErr s =
      withEntry s s.cfg.errTable (errorCodeOf s.cfg F) (.unknownErrorCode (errorCodeOf s.cfg F)) fun i =>
      answer (.errorCode (errorCodeOf s.cfg F) i) s := by
  refine (withFrame_done hF.done _).trans ((if_neg ?_).trans ?_)
  · simp only [Bool.or_eq_true, hF.offsetShort_iff, h0, h1, not_true_eq_false, or_self, not_false_eq_true]
  · exact withBe16_ofBytes hF.buffer (by omega) (by omega) _

end

/-! ## The statements -/

/-- Settles O39: the slots are those of the frame the buffer holds. -/
theorem clsFieldsSplitsTheFrame : Obligations.ClsFieldsSplitsTheFrame :=
  ⟨fun rest => decodeOfEncodeGivesTheOperation .clsFields rest rfl, fun _ hd => withFrame_noFrame hd _,
    fun _ _ hF h9 => execClsFields_frame hF h9⟩

/-- Settles O40: the byte compared is that at offset 4 of the frame the buffer holds. -/
theorem clsTsuccComparesTheMessageType : Obligations.ClsTsuccComparesTheMessageType :=
  ⟨fun rest => decodeOfEncodeGivesTheOperation .clsTsucc rest rfl, fun _ hd => withFrame_noFrame hd _,
    fun _ _ hF h9 => execClsTsucc_frame hF h9⟩

/-- Settles O41, by the tests in the order of R177: message type, length, status word. -/
theorem clsAsuccTestsTheStatusWord : Obligations.ClsAsuccTestsTheStatusWord := by
  refine ⟨fun rest => decodeOfEncodeGivesTheOperation .clsAsucc rest rfl, fun _ hd => withFrame_noFrame hd _,
    fun s F hF h9 => ?_⟩
  intro sw
  split
  next hmt => exact execClsAsucc_noTransportSuccess hF h9 hmt
  next hmt =>
    have hmt := not_not.mp hmt
    split
    next hshort => exact execClsAsucc_short hF h9 hmt hshort
    next hlong =>
      rw [← swSuccess_eq, ← swMore_eq]
      exact execClsAsucc_statusWord hF hmt (statusWordOf_eq_some (not_lt.mp hlong))

/-- Settles O42: the status word is looked up once the frame is long enough to have one. -/
theorem clsAdescLooksUpTheStatusWord : Obligations.ClsAdescLooksUpTheStatusWord :=
  ⟨fun rest => decodeOfEncodeGivesTheOperation .clsAdesc rest rfl, fun _ hd => withFrame_noFrame hd _,
    fun _ _ hF _ => ⟨execClsAdesc_short hF,
      fun hlong => execClsAdesc_missed hF (statusWordOf_eq_some hlong),
      fun hlong _ => execClsAdesc_found hF (statusWordOf_eq_some hlong)⟩⟩

/-- Settles O43: with the offsets in the frame, the three lookups run until one misses. -/
theorem clsStatLooksUpTheThreeBytes : Obligations.ClsStatLooksUpTheThreeBytes := by
  refine ⟨fun rest => decodeOfEncodeGivesTheOperation .clsStat rest rfl, fun _ hd => withFrame_noFrame hd _,
    fun s F hF h9 => ⟨execClsStat_short hF, ?_, ?_, ?_, ?_⟩⟩
  · rintro ⟨h0, h1, h2⟩ hdisp
    rw [execClsStat_inFrame hF h9 h0 h1 h2, withEntry_missed hdisp]
    rfl
  · rintro d ⟨h0, h1, h2⟩ hdisp hstack
    rw [execClsStat_inFrame hF h9 h0 h1 h2, withEntry_found hdisp, withEntry_missed hstack]
    rfl
  · rintro d k ⟨h0, h1, h2⟩ hdisp hstack hcapt
    rw [execClsStat_inFrame hF h9 h0 h1 h2, withEntry_found hdisp, withEntry_found hstack, withEntry_missed hcapt]
    rfl
  · rintro d k c ⟨h0, h1, h2⟩ hdisp hstack hcapt
    rw [execClsStat_inFrame hF h9 h0 h1 h2, withEntry_found hdisp, withEntry_found hstack, withEntry_found hcapt]
    rfl

/-- Settles O44: with the offsets in the frame, the code is looked up. -/
theorem clsErrLooksUpTheErrorCode : Obligations.ClsErrLooksUpTheErrorCode := by
  refine ⟨fun rest => decodeOfEncodeGivesTheOperation .clsErr rest rfl, fun _ hd => withFrame_noFrame hd _,
    fun s F hF h9 => ⟨execClsErr_short hF, ?_, ?_⟩⟩
  · rintro ⟨h1, h0⟩ hmiss
    exact (execClsErr_inFrame hF h9 h1 h0).trans (withEntry_missed hmiss _ _)
  · rintro i ⟨h1, h0⟩ hi
    exact (execClsErr_inFrame hF h9 h1 h0).trans (withEntry_found hi _ _)

/-- Settles O45: the rows of the table are the success words of R176 and the entries that R7 (b) fixes. -/
theorem classificationTableHolds : Obligations.ClassificationTableHolds := by
  intro s F hF hlong sw asucc adescFound adescMissed
  have hsw : statusWordOf F = some sw := statusWordOf_eq_some hlong
  have hasucc {ok more : Bool} (hok : swSuccess sw = ok) (hmore : swMore sw = more) : asucc ok more := fun hmt =>
    hok ▸ hmore ▸ execClsAsucc_statusWord hF hmt hsw
  have hfound (h : (s.cfg.apduTable.find sw).isSome = true) : adescFound :=
    (Option.isSome_iff_exists.mp h).imp fun _ => execClsAdesc_found hF hsw
  have hmissed : s.cfg.apduTable.find sw = none → adescMissed := execClsAdesc_missed hF hsw
  obtain ⟨h9100, h9000, h91AF, h91AE, h6A82⟩ := apduTable_entries s.cfg
  refine ⟨fun h => ⟨hasucc (h ▸ rfl) (h ▸ rfl), hfound (h ▸ h9100)⟩,
    fun h => ⟨hasucc (h ▸ rfl) (h ▸ rfl), hfound (h ▸ h9000)⟩,
    fun h => ⟨hasucc (h ▸ rfl) (h ▸ rfl), hfound (h ▸ h91AF)⟩,
    fun h => ⟨hasucc (h ▸ rfl) (h ▸ rfl), hfound (h ▸ h91AE)⟩,
    fun h => ⟨hasucc (h ▸ rfl) (h ▸ rfl), hmissed (h ▸ h6A82)⟩,
    fun hne9100 hne9000 hne91AF => ⟨hasucc ?_ ?_, hfound, hmissed⟩,
    execClsAsucc_noTransportSuccess hF (by omega)⟩
  · rw [swSuccess_eq, decide_eq_false_iff_not]
    simp only [hne9100, hne9000, hne91AF, or_self, not_false_eq_true]
  · rw [swMore_eq, decide_eq_false hne91AF]

end Sys2Proof.Machine

/-! SUPPORT. The faults (spec/60_exceptions.md): the table of result codes (R205), which operation or decoder step a fault
can come from (R205 to R212), and that an operation which ends with one has done nothing else (R217). -/

namespace Sys2Proof.Machine

/-- Settles O47: the table, read off fault by fault. -/
theorem resultCodesAreTheTables : Obligations.ResultCodesAreTheTables := by
  refine ⟨fun _ => rfl, rfl, fun _ => rfl, fun _ _ => rfl, fun _ => rfl, rfl, fun f => ?_⟩
  cases f <;> simp [OpFault.code]

/-! ## The faults a result can end with -/

/-- If the answer adds exactly one result to `before` and it is a fault, `P` holds of the fault. -/
abbrev RaisesOnly (before : List Response) (P : OpFault → Prop) (r : Result) : Prop :=
  IfNext (fun t => ∀ f, t.results = before ++ [.fault f] → P f) r

section
variable {P : OpFault → Prop} {s : State}

theorem raise_raisesOnly {f : OpFault} (h : P f) : RaisesOnly s.results P (raise f s) := by
  refine ifNext_next fun g hg => ?_
  obtain rfl : f = g := by simpa using hg
  exact h

theorem answer_raisesOnly (v : Value) : RaisesOnly s.results P (answer v s) := ifNext_next fun g hg => by simp at hg

/-- An answer that returns no result raises no fault. -/
theorem next_raisesOnly {t : State} (h : t.results = s.results) : RaisesOnly s.results P (.next t) :=
  ifNext_next fun g hg => by simp [h] at hg

theorem decodeFail_raisesOnly {f : OpFault} (h : P f) : RaisesOnly s.results P (decodeFail f s) :=
  raise_raisesOnly (s := { s with dph := .fail, derr := f.code, rxLen := 0, dcnt := 0, rxbuf := [] }) h

theorem decodeDone_raisesOnly : RaisesOnly s.results P (decodeDone s) :=
  answer_raisesOnly (s := { s with dph := .done }) _

theorem raisesOnly_ite {before : List Response} {c : Prop} [Decidable c] {x y : Result}
    (hx : c → RaisesOnly before P x) (hy : ¬ c → RaisesOnly before P y) : RaisesOnly before P (if c then x else y) := by
  split
  next hc => exact hx hc
  next hc => exact hy hc

theorem withFrame_raisesOnly {k : Result} (hnone : s.dph ≠ .done → P .noFrame) (hk : RaisesOnly s.results P k) :
    RaisesOnly s.results P (withFrame s k) :=
  raisesOnly_ite (fun _ => hk) fun hd => raise_raisesOnly (hnone hd)

theorem withEntry_raisesOnly {w : Nat} {t : Table w} {code : BitVec w} {miss : OpFault} {k : Nat → Result}
    (hmiss : P miss) (hk : ∀ i, RaisesOnly s.results P (k i)) : RaisesOnly s.results P (withEntry s t code miss k) := by
  unfold withEntry
  split
  · exact hk _
  · exact raise_raisesOnly hmiss

theorem withBe16_raisesOnly {i j : Nat} {k : Word16 → Result} (hk : ∀ v, RaisesOnly s.results P (k v)) :
    RaisesOnly s.results P (withBe16 s i j k) :=
  ifNext_withByte fun _ => ifNext_withByte fun _ => hk _

theorem withStatusWord_raisesOnly {k : Word16 → Result} (hshort : P .shortFrame)
    (hk : ∀ v, RaisesOnly s.results P (k v)) : RaisesOnly s.results P (withStatusWord s k) :=
  raisesOnly_ite (fun _ => raise_raisesOnly hshort) fun _ => withBe16_raisesOnly hk

/-- R127: the channel's answer decides between `Ok` and `ChannelIOError`. -/
theorem sendFrame_raisesOnly (frame : List Byte) (hchannel : P .channelIOError) :
    RaisesOnly s.results P (sendFrame frame s) := by
  rw [sendFrame_eq]
  refine ifNext_next fun f hf => ?_
  cases hanswer : txAnswer s with
  | ok => simp [hanswer, txResponse] at hf
  | ioError sent =>
    obtain rfl : OpFault.channelIOError = f := by simpa [hanswer, txResponse] using hf
    exact hchannel

end

/-! ## The faults of the operations (R205, R207 to R212) -/

/-- The classifier's operations, all of which need a frame (R170). -/
def clsOps : List Instr := [.clsTsucc, .clsAsucc, .clsAdesc, .clsStat, .clsErr, .clsFields]

/-- The column "Raised by" of R205: the fault can be what the operation `i`, issued in the state `s`, ends with. -/
inductive RaisedBy (i : Instr) (s : State) : OpFault → Prop where
  | undocumentedStatusWord {sw : Word16} (h : i = .clsAdesc) : RaisedBy i s (.undocumentedStatusWord sw)
  | unknownStatusCode {which : StatusField} {code : Byte} (h : i = .clsStat) : RaisedBy i s (.unknownStatusCode which code)
  | unknownErrorCode {code : Word16} (h : i = .clsErr) : RaisedBy i s (.unknownErrorCode code)
  | channelIOError (h : sends i = true) : RaisedBy i s .channelIOError
  | encodeRefused (h : ∃ addr A, i = .encApdu addr A ∧ 65532 < A.length) : RaisedBy i s .encodeRefused
  | noFrame (h : s.dph ≠ .done ∧ (i ∈ clsOps ∨ ∃ n, i = .rxRd n)) : RaisedBy i s .noFrame
  | shortFrame (h : i ∈ [Instr.clsAsucc, .clsAdesc, .clsStat, .clsErr]) : RaisedBy i s .shortFrame
  | badIndex (h : ∃ n, i = .rxRd n ∧ s.rxLen.toNat ≤ n.toNat) : RaisedBy i s .badIndex
  | badReg (h : ∃ n, i = .regRd n ∧ 10 ≤ n.toNat) : RaisedBy i s .badReg

/-- The answer of the operation `i` in `s` is no fault that R205 does not let it raise. -/
abbrev RaisesItsOwn (i : Instr) (s : State) (r : Result) : Prop := RaisesOnly s.results (RaisedBy i s) r

theorem withFrame_raisesItsOwn {i : Instr} (hi : i ∈ clsOps) {s : State} {k : Result} (hk : RaisesItsOwn i s k) :
    RaisesItsOwn i s (withFrame s k) :=
  withFrame_raisesOnly (fun hd => .noFrame ⟨hd, .inl hi⟩) hk

theorem execEncApdu_raisesItsOwn (addr : Byte) (apdu : List Byte) (s : State) :
    RaisesItsOwn (.encApdu addr apdu) s (exec (.encApdu addr apdu) s) :=
  raisesOnly_ite (fun hlong => raise_raisesOnly (.encodeRefused ⟨addr, apdu, rfl, hlong⟩)) fun _ =>
    sendFrame_raisesOnly _ (.channelIOError rfl)

theorem execRxRd_raisesItsOwn (index : Index24) (s : State) : RaisesItsOwn (.rxRd index) s (exec (.rxRd index) s) :=
  withFrame_raisesOnly (fun hd => .noFrame ⟨hd, .inr ⟨index, rfl⟩⟩) <|
    raisesOnly_ite (fun hout => raise_raisesOnly (.badIndex ⟨index, rfl, hout⟩)) fun _ =>
      ifNext_withByte fun _ => answer_raisesOnly _

theorem execClsTsucc_raisesItsOwn (s : State) : RaisesItsOwn .clsTsucc s (exec .clsTsucc s) :=
  withFrame_raisesItsOwn (by simp [clsOps]) <| ifNext_withByte fun _ => answer_raisesOnly _

theorem execClsAsucc_raisesItsOwn (s : State) : RaisesItsOwn .clsAsucc s (exec .clsAsucc s) :=
  withFrame_raisesItsOwn (by simp [clsOps]) <| ifNext_withByte fun _ =>
    raisesOnly_ite (fun _ => answer_raisesOnly _) fun _ =>
      withStatusWord_raisesOnly (.shortFrame (by simp)) fun _ => answer_raisesOnly _

theorem execClsAdesc_raisesItsOwn (s : State) : RaisesItsOwn .clsAdesc s (exec .clsAdesc s) :=
  withFrame_raisesItsOwn (by simp [clsOps]) <| withStatusWord_raisesOnly (.shortFrame (by simp)) fun _ =>
    withEntry_raisesOnly (.undocumentedStatusWord rfl) fun _ => answer_raisesOnly _

theorem execClsStat_raisesItsOwn (s : State) : RaisesItsOwn .clsStat s (exec .clsStat s) :=
  withFrame_raisesItsOwn (by simp [clsOps]) <|
    raisesOnly_ite (fun _ => raise_raisesOnly (.shortFrame (by simp))) fun _ =>
      ifNext_withByte fun _ => withEntry_raisesOnly (.unknownStatusCode rfl) fun _ =>
      ifNext_withByte fun _ => withEntry_raisesOnly (.unknownStatusCode rfl) fun _ =>
      ifNext_withByte fun _ => withEntry_raisesOnly (.unknownStatusCode rfl) fun _ => answer_raisesOnly _

theorem execClsErr_raisesItsOwn (s : State) : RaisesItsOwn .clsErr s (exec .clsErr s) :=
  withFrame_raisesItsOwn (by simp [clsOps]) <|
    raisesOnly_ite (fun _ => raise_raisesOnly (.shortFrame (by simp))) fun _ =>
      withBe16_raisesOnly fun _ => withEntry_raisesOnly (.unknownErrorCode rfl) fun _ => answer_raisesOnly _

theorem execClsFields_raisesItsOwn (s : State) : RaisesItsOwn .clsFields s (exec .clsFields s) :=
  withFrame_raisesItsOwn (by simp [clsOps]) <|
    ifNext_withByte fun _ => withBe16_raisesOnly fun _ => ifNext_withByte fun _ => ifNext_withByte fun _ =>
    ifNext_withByte fun _ => ifNext_withByte fun _ => ifNext_withByte fun _ => answer_raisesOnly _

/-- R33: every number below 10 names a register. -/
theorem ten_le_of_regValue_none {n : Byte} {s : State} (h : regValue n s = none) : 10 ≤ n.toNat := by
  unfold regValue at h
  split_ifs at h
  bv_omega

theorem execRegRd_raisesItsOwn (n : Byte) (s : State) : RaisesItsOwn (.regRd n) s (exec (.regRd n) s) := by
  cases hvalue : regValue n s with
  | none =>
    rw [execRegRd_none hvalue]
    exact raise_raisesOnly (.badReg ⟨n, rfl, ten_le_of_regValue_none hvalue⟩)
  | some v =>
    simp only [exec, execRegRd, hvalue]
    exact answer_raisesOnly _

/-- Every operation ends with `Ok` or with a fault of its own; `DEC` with neither, when it is issued. -/
theorem exec_raisesItsOwn (i : Instr) (s : State) : RaisesItsOwn i s (exec i s) := by
  cases i with
  | bccClr | bccUpd => exact answer_raisesOnly (s := { s with bcc := _ }) _
  | crcInit | crcUpd => exact answer_raisesOnly (s := { s with crc := _ }) _
  | bccRd | crcRd | crcBrev | rxLen => exact answer_raisesOnly _
  | dec => exact next_raisesOnly rfl
  | encBasic => exact sendFrame_raisesOnly _ (.channelIOError rfl)
  | encApdu addr apdu => exact execEncApdu_raisesItsOwn addr apdu s
  | rxRd index => exact execRxRd_raisesItsOwn index s
  | clsTsucc => exact execClsTsucc_raisesItsOwn s
  | clsAsucc => exact execClsAsucc_raisesItsOwn s
  | clsAdesc => exact execClsAdesc_raisesItsOwn s
  | clsStat => exact execClsStat_raisesItsOwn s
  | clsErr => exact execClsErr_raisesItsOwn s
  | clsFields => exact execClsFields_raisesItsOwn s
  | regRd n => exact execRegRd_raisesItsOwn n s

/-! ## The faults of the decoder (R205, R206, R208) -/

/-- The faults a decoder step can end with, under a configuration and before the channel's answers `answers`. -/
inductive DecoderRaises (c : Cfg) (answers : List RxAnswer) : OpFault → Prop where
  | badStart : DecoderRaises c answers .badStart
  | ackMissing (h : c.ackAbsent = .desync) : DecoderRaises c answers .ackMissing
  | shortLength : DecoderRaises c answers .shortLength
  | tooLong : DecoderRaises c answers .tooLong
  | badEnd : DecoderRaises c answers .badEnd
  | checksumMismatch : DecoderRaises c answers .checksumMismatch
  | channelIOError (h : answers.head? = some .ioError) : DecoderRaises c answers .channelIOError

/-- The answer, to the channel's `answers`, is no fault that R205 does not let the decoder raise. -/
abbrev RaisesADecodeFault (s : State) (answers : List RxAnswer) (r : Result) : Prop :=
  RaisesOnly s.results (DecoderRaises s.cfg answers) r

section
variable (s : State) (answers : List RxAnswer)

theorem checkLength_raisesADecodeFault : RaisesADecodeFault s answers (checkLength s) :=
  ifNext_withByte fun _ => ifNext_withByte fun _ =>
    raisesOnly_ite (fun _ => decodeFail_raisesOnly .shortLength) fun _ =>
      raisesOnly_ite (fun _ => decodeFail_raisesOnly .tooLong) fun _ => next_raisesOnly rfl

/-- R147: a missing acknowledgment byte is a fault under `desync` only. -/
theorem checkStart_raisesADecodeFault : RaisesADecodeFault s answers (checkStart s) :=
  ifNext_withByte fun _ =>
    raisesOnly_ite (fun _ => decodeFail_raisesOnly .badStart) fun _ =>
      raisesOnly_ite (fun ⟨_, hdesync⟩ => decodeFail_raisesOnly (.ackMissing hdesync)) fun _ =>
        checkLength_raisesADecodeFault s answers

theorem evalHeader_raisesADecodeFault : RaisesADecodeFault s answers (evalHeader s) :=
  ifNext_withByte fun _ =>
    ifNext_ite
      (ifNext_withByte fun _ => ifNext_withByte fun _ => ifNext_withByte fun _ => ifNext_withByte fun _ =>
        checkStart_raisesADecodeFault { s with rxbuf := _, rxLen := 4, dack := true } answers)
      (checkStart_raisesADecodeFault { s with dack := false } answers)

theorem checkChecksum_raisesADecodeFault : RaisesADecodeFault s answers (checkChecksum s) := by
  unfold checkChecksum
  split
  · exact ifNext_withByte fun _ =>
      ifNext_ite (decodeFail_raisesOnly .checksumMismatch) decodeDone_raisesOnly
  · exact ifNext_fault _ _

theorem validateFrame_raisesADecodeFault : RaisesADecodeFault s answers (validateFrame s) :=
  ifNext_withByte fun _ => ifNext_ite (decodeFail_raisesOnly .badEnd) (checkChecksum_raisesADecodeFault s answers)

theorem afterByte_raisesADecodeFault : RaisesADecodeFault s answers (afterByte s) :=
  ifNext_ite
    (ifNext_ite (evalHeader_raisesADecodeFault s answers) (validateFrame_raisesADecodeFault s answers))
    (next_raisesOnly rfl)

end

/-- R154: `ChannelIOError` comes from the channel's error and from nothing the decoder reads. -/
theorem decoderStep_raisesADecodeFault (s : State) : RaisesADecodeFault s s.inbound (decoderStep s) := by
  unfold decoderStep
  split
  case h_1 | h_2 => exact next_raisesOnly rfl
  case h_3 rest hin =>
    exact decodeFail_raisesOnly (s := { s with inbound := rest }) (.channelIOError (by rw [hin]; rfl))
  case h_4 b rest _ =>
    exact ifNext_storeByte <|
      afterByte_raisesADecodeFault { s with inbound := rest, rxPos := _, rxbuf := _, rxLen := _, dcnt := _ } s.inbound

/-- Settles O48: the operations by `RaisedBy`, the decoder by `DecoderRaises`. -/
theorem faultsComeFromTheirOperations : Obligations.FaultsComeFromTheirOperations := by
  refine ⟨fun i s t f ht hf => ?_, fun s t f hlow hbusy ht hf => ?_⟩
  · cases exec_raisesItsOwn i s t ht f hf with
    | undocumentedStatusWord h | unknownStatusCode h | unknownErrorCode h | channelIOError h | encodeRefused h | noFrame h
    | shortFrame h | badIndex h | badReg h => exact h
  · rw [step_busy hlow hbusy] at ht
    cases decoderStep_raisesADecodeFault (tick s) t ht f hf with
    | badStart | shortLength | tooLong | badEnd | checksumMismatch => simp
    | ackMissing hdesync => exact ⟨by simp, fun _ => hdesync, nofun⟩
    | channelIOError herror => exact ⟨by simp, nofun, fun _ => herror⟩

/-! ## A fault changes nothing (R217) -/

/-- R205, R20: no operation that can raise a fault writes a checksum register or starts a decode. -/
theorem RaisedBy.writes_nothing {i : Instr} {s : State} {f : OpFault} (h : RaisedBy i s f) :
    writesBcc i = false ∧ writesCrc i = false ∧ i ≠ .dec := by
  cases i with
  | bccClr | bccUpd | crcInit | crcUpd | dec =>
    cases h with
    | undocumentedStatusWord h | unknownStatusCode h | unknownErrorCode h | channelIOError h | encodeRefused h | noFrame h
    | shortFrame h | badIndex h | badReg h => simp [clsOps, sends] at h
  | bccRd | crcRd | crcBrev | encBasic | encApdu | rxLen | rxRd | clsTsucc | clsAsucc | clsAdesc | clsStat | clsErr
  | clsFields | regRd => exact ⟨rfl, rfl, nofun⟩

/-- Settles O49: of the effects an operation can have, a fault leaves a result alone, or a result and a write of a frame. -/
theorem faultingOperationsChangeNothing : Obligations.FaultingOperationsChangeNothing := by
  intro i s t f ht hf
  obtain ⟨hbcc, hcrc, hdec⟩ := (exec_raisesItsOwn i s t ht f hf).writes_nothing
  cases exec_effect i s t ht with
  | result r => exact ⟨fun _ => rfl, rfl⟩
  | frame hsends => exact ⟨fun hno => absurd hsends (by simp [hno]), rfl⟩
  | bcc hwrites => exact absurd hwrites (by simp [hbcc])
  | crc hwrites => exact absurd hwrites (by simp [hcrc])
  | start hstart => exact absurd hstart hdec

end Sys2Proof.Machine

/-! SUPPORT. Reset (spec/70_reset_and_hazards.md R230 to R233), and how long a received frame stays (R244): no operation but
`DEC` touches what the decoder left. -/

namespace Sys2Proof.Machine

/-! ## A received frame stays (R244) -/

/-- The answer leaves the decoder's part of `s` as it is. -/
abbrev KeepsDecodeView (s : State) (r : Result) : Prop := IfNext (fun t => t.decodeView = s.decodeView) r

/-- R20, R218: of the effects an operation can have, only the start of a decode is one on the decoder. -/
theorem exec_keepsDecodeView {i : Instr} (h : i ≠ .dec) (s : State) : KeepsDecodeView s (exec i s) := by
  intro t ht
  cases exec_effect i s t ht with
  | result | bcc | crc | frame => rfl
  | start hdec => exact absurd hdec h

/-- A host that does not issue `DEC` leaves the decoder as it is: a reserved code too only returns a fault (R86). -/
theorem hostStep_keepsDecodeView {s : State} (h : ∀ rest, decode s.ops ≠ .op .dec rest) :
    KeepsDecodeView s (hostStep s) := by
  unfold hostStep
  split
  case h_1 i rest hop => exact exec_keepsDecodeView (by rintro rfl; exact h rest hop) { s with ops := rest }
  case h_2 | h_4 => exact ifNext_next rfl
  case h_3 => exact ifNext_refused _ _

/-- Settles O54: in `DONE` the step is the host's, unless it is a reset event. -/
theorem receivedFrameStaysUntilDecOrReset : Obligations.ReceivedFrameStaysUntilDecOrReset := by
  intro s t hdone ht
  by_cases hlow : noReset s
  case neg => exact .inr (.inl (not_not.mp hlow))
  by_cases hdec : ∃ rest, decode s.ops = .op .dec rest
  case pos => exact .inr (.inr hdec)
  have hquiet : s.dph.busy = false := by rw [hdone]; rfl
  have hview : t.decodeView = s.decodeView :=
    hostStep_keepsDecodeView (s := tick s) (not_exists.mp hdec) t (step_quiet hlow hquiet ▸ ht)
  have hdph : t.dph = s.dph := congrArg DecodeView.dph hview
  have hbuf : t.rxbuf = s.rxbuf := congrArg DecodeView.rxbuf hview
  exact .inl ⟨hdph.trans hdone, congrArg DecodeView.rxLen hview, fun _ => by rw [hbuf]⟩

/-! ## The values of reset (R36, R233) -/

/-- Settles O8: the two checksum registers start as the checksums of the empty sequence. -/
theorem resetStateHoldsTheSpecValues : Obligations.ResetStateHoldsTheSpecValues :=
  ⟨rfl, rfl, fun _ => rfl, rfl, rfl, rfl, rfl, rfl, rfl, bcc_nil, rfl⟩

/-! ## The reset event (R230 to R232) -/

theorem resetEvent_results_busy {s : State} (h : s.dph.busy = true) :
    (resetEvent s).results = s.results ++ [.aborted] := by simp [abortedBy, h]

theorem resetEvent_results_quiet {s : State} (h : s.dph.busy = false) : (resetEvent s).results = s.results := by
  simp [abortedBy, h]

/-- Settles O9: the step is the reset event, whose fields the laws of State give. -/
theorem resetEventSetsTheBlockOnly : Obligations.ResetEventSetsTheBlockOnly := by
  intro s line hhigh
  exact ⟨_, step_reset hhigh, by simp [Memory.read]⟩

/-- Settles O10: the phase before the reset decides whether a `DEC` was waiting. -/
theorem resetAbortsAWaitingDec : Obligations.ResetAbortsAWaitingDec := by
  intro s line hhigh
  exact ⟨_, step_reset hhigh, rfl, rfl, resetEvent_results_busy (s := { s with resetLine := line }),
    resetEvent_results_quiet (s := { s with resetLine := line })⟩

end Sys2Proof.Machine
